-- ==== Sys2Proof/Word.lean ====
section
/-! DEFINITION. The word types of the block and the small closed sets of names the spec fixes: data
sizes (R12), operation tags (R35), instruction forms (opcode_table.json), the InstructionWord (R29). -/

namespace Sys2Proof

/-- One byte of the code image (R52). -/
abbrev Byte := BitVec 8
/-- An opcode word or a 16-bit extension word (R8). -/
abbrev Word := BitVec 16
/-- A long extension, or an operand's `val` (R8, R30). -/
abbrev Long := BitVec 32

/-- The declared data size of an operand, `dsize` (R12). -/
inductive DSize where
  | byte | word | long
  /-- any other declared size, which the source lets reach the EA Decoder (R140) -/
  | other
  deriving DecidableEq, Repr

/-- The operation-type tags of line E, in the order of their codes 0 to 7 (R35). -/
inductive Tag where
  | asr | asl | lsr | lsl | roxr | roxl | ror | rol
  deriving DecidableEq, Repr

/-- The three line-E encodings of an operation (R73, R74; "form" of opcode_table.json). -/
inductive Form where
  /-- register form, immediate count -/
  | regImm
  /-- register form, register count -/
  | regReg
  /-- memory form -/
  | mem
  deriving DecidableEq, Repr

/-- One row of opcode_table.json: the operation, its form, and the fixed bits. -/
structure OpcodeRow where
  tag     : Tag
  form    : Form
  pattern : Word
  mask    : Word
  deriving DecidableEq, Repr

/-- The InstructionWord of an attempt: the raw opcode word and the Field Extractor's outputs (R29, R70). -/
structure InstructionWord where
  raw    : Word
  regLo  : BitVec 3
  modeLo : BitVec 3
  size   : BitVec 2
  modeHi : BitVec 3
  regHi  : BitVec 3
  line   : BitVec 4
  deriving DecidableEq, Repr

/-- Why a word is not an instruction of the table. -/
inductive DecodeError where
  /-- fewer than two bytes were given -/
  | truncated
  /-- an opcode line other than 0xE (R211) -/
  | unsupportedOpcodeLine (line : BitVec 4)
  deriving DecidableEq, Repr

end Sys2Proof
end

