-- ==== Sys2Proof/Syntax.lean ====
section
/-! DEFINITION. The instructions of the block: one constructor per row of opcode_table.json (R170 to R193).
An instruction is what the OPCODE WORD says; extension words are fetched later, by the EA Decoder, through the
cursor (R64, R108), and are no part of it. -/

namespace Sys2Proof

/-- The line-E instructions. Register form: the count field `cnt`/`creg` (bits 11:9), the size code (bits 7:6)
and the destination data register (bits 2:0) (R73). Memory form: the unexamined bit 11 `x`, and the EA pair
(`mode`, `reg`) (R74). -/
inductive Instr where
  /-- `ASR.s #cnt,Dd`: arithmetic shift right, register form, immediate count (R170) -/
  | asrImm (cnt : BitVec 3) (size : DSize) (dreg : BitVec 3)
  /-- `ASR.s Dc,Dd`: arithmetic shift right, register form, register count (R171) -/
  | asrReg (creg : BitVec 3) (size : DSize) (dreg : BitVec 3)
  /-- `ASR.W <ea>`: arithmetic shift right, memory form (R172) -/
  | asrMem (x : Bool) (mode : BitVec 3) (reg : BitVec 3)
  /-- `ASL.s #cnt,Dd`: arithmetic shift left, register form, immediate count (R173) -/
  | aslImm (cnt : BitVec 3) (size : DSize) (dreg : BitVec 3)
  /-- `ASL.s Dc,Dd`: arithmetic shift left, register form, register count (R174) -/
  | aslReg (creg : BitVec 3) (size : DSize) (dreg : BitVec 3)
  /-- `ASL.W <ea>`: arithmetic shift left, memory form (R175) -/
  | aslMem (x : Bool) (mode : BitVec 3) (reg : BitVec 3)
  /-- `LSR.s #cnt,Dd`: logical shift right, register form, immediate count (R176) -/
  | lsrImm (cnt : BitVec 3) (size : DSize) (dreg : BitVec 3)
  /-- `LSR.s Dc,Dd`: logical shift right, register form, register count (R177) -/
  | lsrReg (creg : BitVec 3) (size : DSize) (dreg : BitVec 3)
  /-- `LSR.W <ea>`: logical shift right, memory form (R178) -/
  | lsrMem (x : Bool) (mode : BitVec 3) (reg : BitVec 3)
  /-- `LSL.s #cnt,Dd`: logical shift left, register form, immediate count (R179) -/
  | lslImm (cnt : BitVec 3) (size : DSize) (dreg : BitVec 3)
  /-- `LSL.s Dc,Dd`: logical shift left, register form, register count (R180) -/
  | lslReg (creg : BitVec 3) (size : DSize) (dreg : BitVec 3)
  /-- `LSL.W <ea>`: logical shift left, memory form (R181) -/
  | lslMem (x : Bool) (mode : BitVec 3) (reg : BitVec 3)
  /-- `ROXR.s #cnt,Dd`: rotate-with-extend right, register form, immediate count (R182) -/
  | roxrImm (cnt : BitVec 3) (size : DSize) (dreg : BitVec 3)
  /-- `ROXR.s Dc,Dd`: rotate-with-extend right, register form, register count (R183) -/
  | roxrReg (creg : BitVec 3) (size : DSize) (dreg : BitVec 3)
  /-- `ROXR.W <ea>`: rotate-with-extend right, memory form (R184) -/
  | roxrMem (x : Bool) (mode : BitVec 3) (reg : BitVec 3)
  /-- `ROXL.s #cnt,Dd`: rotate-with-extend left, register form, immediate count (R185) -/
  | roxlImm (cnt : BitVec 3) (size : DSize) (dreg : BitVec 3)
  /-- `ROXL.s Dc,Dd`: rotate-with-extend left, register form, register count (R186) -/
  | roxlReg (creg : BitVec 3) (size : DSize) (dreg : BitVec 3)
  /-- `ROXL.W <ea>`: rotate-with-extend left, memory form (R187) -/
  | roxlMem (x : Bool) (mode : BitVec 3) (reg : BitVec 3)
  /-- `ROR.s #cnt,Dd`: rotate right, register form, immediate count (R188) -/
  | rorImm (cnt : BitVec 3) (size : DSize) (dreg : BitVec 3)
  /-- `ROR.s Dc,Dd`: rotate right, register form, register count (R189) -/
  | rorReg (creg : BitVec 3) (size : DSize) (dreg : BitVec 3)
  /-- `ROR.W <ea>`: rotate right, memory form (R190) -/
  | rorMem (x : Bool) (mode : BitVec 3) (reg : BitVec 3)
  /-- `ROL.s #cnt,Dd`: rotate left, register form, immediate count (R191) -/
  | rolImm (cnt : BitVec 3) (size : DSize) (dreg : BitVec 3)
  /-- `ROL.s Dc,Dd`: rotate left, register form, register count (R192) -/
  | rolReg (creg : BitVec 3) (size : DSize) (dreg : BitVec 3)
  /-- `ROL.W <ea>`: rotate left, memory form (R193) -/
  | rolMem (x : Bool) (mode : BitVec 3) (reg : BitVec 3)
  deriving DecidableEq, Repr

/-- The operation an instruction names. -/
def Instr.tag : Instr → Tag
  | .asrImm _ _ _ | .asrReg _ _ _ | .asrMem _ _ _ => .asr
  | .aslImm _ _ _ | .aslReg _ _ _ | .aslMem _ _ _ => .asl
  | .lsrImm _ _ _ | .lsrReg _ _ _ | .lsrMem _ _ _ => .lsr
  | .lslImm _ _ _ | .lslReg _ _ _ | .lslMem _ _ _ => .lsl
  | .roxrImm _ _ _ | .roxrReg _ _ _ | .roxrMem _ _ _ => .roxr
  | .roxlImm _ _ _ | .roxlReg _ _ _ | .roxlMem _ _ _ => .roxl
  | .rorImm _ _ _ | .rorReg _ _ _ | .rorMem _ _ _ => .ror
  | .rolImm _ _ _ | .rolReg _ _ _ | .rolMem _ _ _ => .rol

/-- The form an instruction has. -/
def Instr.form : Instr → Form
  | .asrImm _ _ _ | .aslImm _ _ _ | .lsrImm _ _ _ | .lslImm _ _ _
  | .roxrImm _ _ _ | .roxlImm _ _ _ | .rorImm _ _ _ | .rolImm _ _ _ => .regImm
  | .asrReg _ _ _ | .aslReg _ _ _ | .lsrReg _ _ _ | .lslReg _ _ _
  | .roxrReg _ _ _ | .roxlReg _ _ _ | .rorReg _ _ _ | .rolReg _ _ _ => .regReg
  | .asrMem _ _ _ | .aslMem _ _ _ | .lsrMem _ _ _ | .lslMem _ _ _
  | .roxrMem _ _ _ | .roxlMem _ _ _ | .rorMem _ _ _ | .rolMem _ _ _ => .mem

/-- The register form with an immediate count of an operation: the row of that tag. -/
def Instr.immForm (t : Tag) (cnt : BitVec 3) (size : DSize) (dreg : BitVec 3) : Instr :=
  match t with
  | .asr => .asrImm cnt size dreg
  | .asl => .aslImm cnt size dreg
  | .lsr => .lsrImm cnt size dreg
  | .lsl => .lslImm cnt size dreg
  | .roxr => .roxrImm cnt size dreg
  | .roxl => .roxlImm cnt size dreg
  | .ror => .rorImm cnt size dreg
  | .rol => .rolImm cnt size dreg

/-- The register form with a register count of an operation: the row of that tag. -/
def Instr.regForm (t : Tag) (creg : BitVec 3) (size : DSize) (dreg : BitVec 3) : Instr :=
  match t with
  | .asr => .asrReg creg size dreg
  | .asl => .aslReg creg size dreg
  | .lsr => .lsrReg creg size dreg
  | .lsl => .lslReg creg size dreg
  | .roxr => .roxrReg creg size dreg
  | .roxl => .roxlReg creg size dreg
  | .ror => .rorReg creg size dreg
  | .rol => .rolReg creg size dreg

/-- The memory form of an operation: the row of that tag. -/
def Instr.memForm (t : Tag) (x : Bool) (mode : BitVec 3) (reg : BitVec 3) : Instr :=
  match t with
  | .asr => .asrMem x mode reg
  | .asl => .aslMem x mode reg
  | .lsr => .lsrMem x mode reg
  | .lsl => .lslMem x mode reg
  | .roxr => .roxrMem x mode reg
  | .roxl => .roxlMem x mode reg
  | .ror => .rorMem x mode reg
  | .rol => .rolMem x mode reg

end Sys2Proof
end

