-- ==== Sys2Proof/WellFormed.lean ====
section
/-! DEFINITION. Which instructions have an encoding. -/

namespace Sys2Proof

/-- The size check of the register forms: the 2-bit size code 3 selects the memory form, so a register form
has size byte, word or long (R73, R160; "condition" of opcode_table.json). -/
def DSize.encodable : DSize → Bool
  | .byte | .word | .long => true
  | .other => false

/-- An instruction is well formed when some opcode word encodes it. A memory form is, whatever its EA: a word
with a refused EA is that row's word, and refusing it is the instruction's own behaviour (R166, R172; log 13). -/
def Instr.wf : Instr → Bool
  | .asrImm _ size _ | .asrReg _ size _ => size.encodable
  | .asrMem _ _ _ => true
  | .aslImm _ size _ | .aslReg _ size _ => size.encodable
  | .aslMem _ _ _ => true
  | .lsrImm _ size _ | .lsrReg _ size _ => size.encodable
  | .lsrMem _ _ _ => true
  | .lslImm _ size _ | .lslReg _ size _ => size.encodable
  | .lslMem _ _ _ => true
  | .roxrImm _ size _ | .roxrReg _ size _ => size.encodable
  | .roxrMem _ _ _ => true
  | .roxlImm _ size _ | .roxlReg _ size _ => size.encodable
  | .roxlMem _ _ _ => true
  | .rorImm _ size _ | .rorReg _ size _ => size.encodable
  | .rorMem _ _ _ => true
  | .rolImm _ size _ | .rolReg _ size _ => size.encodable
  | .rolMem _ _ _ => true

end Sys2Proof
end

