-- ==== Sys2Proof/Decode.lean ====
section
/-! DEFINITION. The Field Extractor (R100 to R106), the decoder of opcode words (R73 to R75, R78), and the
encoder written from the same encodings; opcode_table.json as a list of rows. -/

namespace Sys2Proof

/-! ### Field Extractor -/

/-- R100. -/
def regLo (w : Word) : BitVec 3 := w.extractLsb' 0 3
/-- R101. -/
def modeLo (w : Word) : BitVec 3 := w.extractLsb' 3 3
/-- R102. -/
def sizeCode (w : Word) : BitVec 2 := w.extractLsb' 6 2
/-- R103. It overlaps `sizeCode` in bits 6 and 7. -/
def modeHi (w : Word) : BitVec 3 := w.extractLsb' 6 3
/-- R104. -/
def regHi (w : Word) : BitVec 3 := w.extractLsb' 9 3
/-- R105. -/
def opcodeLine (w : Word) : BitVec 4 := w.extractLsb' 12 4
/-- R106: the index-register field of a brief extension word. -/
def xregField (e : Word) : BitVec 4 := e.extractLsb' 12 4
/-- The index-size bit of a brief extension word, `e[11]` (R72, decision D8). -/
def xlongField (e : Word) : Bool := e.getLsbD 11
/-- The displacement of a brief extension word, `e[7:0]` (R72). Bits 10:8 are not examined. -/
def d8Field (e : Word) : Byte := e.extractLsb' 0 8

/-- All of R100 to R105 applied to the opcode word (R108). -/
def extractFields (w : Word) : InstructionWord :=
  { raw := w, regLo := regLo w, modeLo := modeLo w, size := sizeCode w,
    modeHi := modeHi w, regHi := regHi w, line := opcodeLine w }

/-! ### Codes -/

/-- The 2-bit code of a declared size (R12). -/
def dsizeCode : DSize → BitVec 2
  | .byte => 0 | .word => 1 | .long => 2 | .other => 3

/-- The declared size of a 2-bit code (R12). -/
def dsizeOf (c : BitVec 2) : DSize :=
  if c = 0 then .byte else if c = 1 then .word else if c = 2 then .long else .other

/-- The code of an operation tag (R35). -/
def tagCode : Tag → BitVec 3
  | .asr => 0 | .asl => 1 | .lsr => 2 | .lsl => 3
  | .roxr => 4 | .roxl => 5 | .ror => 6 | .rol => 7

/-- TAG_TABLE of R164 (its order is decision D3). -/
def tagTable (idx : BitVec 3) : Tag :=
  if idx = 0 then .asr else if idx = 1 then .asl else if idx = 2 then .lsr else if idx = 3 then .lsl
  else if idx = 4 then .roxr else if idx = 5 then .roxl else if idx = 6 then .ror else .rol

/-- Tag(t, d) of R164: the kind selector `t` in bits 2..1 of the index, the direction bit `d` in bit 0. -/
def lineETag (t : BitVec 2) (d : BitVec 1) : Tag := tagTable (t ++ d)

/-! ### Decoder -/

/-- R160, R73, R74: the instruction of a line-E InstructionWord. Size code 3 selects the memory form; else bit 5
(`modeLo[2]`) tells a register count from an immediate one. -/
def decodeLineE (iw : InstructionWord) : Instr :=
  let d := iw.modeHi.extractLsb' 2 1
  if iw.size = 3 then
    .memForm (lineETag (iw.regHi.extractLsb' 0 2) d) (iw.regHi.getLsbD 2) iw.modeLo iw.regLo
  else if iw.modeLo.getLsbD 2 then
    .regForm (lineETag (iw.modeLo.extractLsb' 0 2) d) iw.regHi (dsizeOf iw.size) iw.regLo
  else
    .immForm (lineETag (iw.modeLo.extractLsb' 0 2) d) iw.regHi (dsizeOf iw.size) iw.regLo

/-- The instruction of an opcode word: every line but 0xE is rejected by name (R78, R211). -/
def decodeWord (w : Word) : Except DecodeError Instr :=
  let iw := extractFields w
  if iw.line = 0xE then .ok (decodeLineE iw) else .error (.unsupportedOpcodeLine iw.line)

/-- Decode the first two bytes, big-endian (R52), and give the rest back. Total: fewer than two bytes are
rejected as `truncated`. -/
def decode : List Byte → Except DecodeError (Instr × List Byte)
  | hi :: lo :: rest =>
    match decodeWord (hi ++ lo) with
    | .ok i => .ok (i, rest)
    | .error e => .error e
  | _ => .error .truncated

/-! ### Encoder -/

/-- The opcode word of a register form (R73): `ir` is bit 5, `t` the kind selector, `d` the direction. -/
def encodeRegWord (cnt : BitVec 3) (d : BitVec 1) (size : DSize) (ir : BitVec 1) (t : BitVec 2)
    (dreg : BitVec 3) : Word :=
  0xE#4 ++ cnt ++ d ++ dsizeCode size ++ ir ++ t ++ dreg

/-- The opcode word of a memory form (R74): `x` is the unexamined bit 11. -/
def encodeMemWord (x : Bool) (t : BitVec 2) (d : BitVec 1) (mode reg : BitVec 3) : Word :=
  0xE#4 ++ BitVec.ofBool x ++ t ++ d ++ 3#2 ++ mode ++ reg

/-- The opcode word of an instruction, row by row as opcode_table.json's "encoding" (R75 for `t` and `d`). -/
def encodeWord : Instr → Word
  | .asrImm cnt size dreg => encodeRegWord cnt 0 size 0 0b00 dreg
  | .asrReg creg size dreg => encodeRegWord creg 0 size 1 0b00 dreg
  | .asrMem x mode reg => encodeMemWord x 0b00 0 mode reg
  | .aslImm cnt size dreg => encodeRegWord cnt 1 size 0 0b00 dreg
  | .aslReg creg size dreg => encodeRegWord creg 1 size 1 0b00 dreg
  | .aslMem x mode reg => encodeMemWord x 0b00 1 mode reg
  | .lsrImm cnt size dreg => encodeRegWord cnt 0 size 0 0b01 dreg
  | .lsrReg creg size dreg => encodeRegWord creg 0 size 1 0b01 dreg
  | .lsrMem x mode reg => encodeMemWord x 0b01 0 mode reg
  | .lslImm cnt size dreg => encodeRegWord cnt 1 size 0 0b01 dreg
  | .lslReg creg size dreg => encodeRegWord creg 1 size 1 0b01 dreg
  | .lslMem x mode reg => encodeMemWord x 0b01 1 mode reg
  | .roxrImm cnt size dreg => encodeRegWord cnt 0 size 0 0b10 dreg
  | .roxrReg creg size dreg => encodeRegWord creg 0 size 1 0b10 dreg
  | .roxrMem x mode reg => encodeMemWord x 0b10 0 mode reg
  | .roxlImm cnt size dreg => encodeRegWord cnt 1 size 0 0b10 dreg
  | .roxlReg creg size dreg => encodeRegWord creg 1 size 1 0b10 dreg
  | .roxlMem x mode reg => encodeMemWord x 0b10 1 mode reg
  | .rorImm cnt size dreg => encodeRegWord cnt 0 size 0 0b11 dreg
  | .rorReg creg size dreg => encodeRegWord creg 0 size 1 0b11 dreg
  | .rorMem x mode reg => encodeMemWord x 0b11 0 mode reg
  | .rolImm cnt size dreg => encodeRegWord cnt 1 size 0 0b11 dreg
  | .rolReg creg size dreg => encodeRegWord creg 1 size 1 0b11 dreg
  | .rolMem x mode reg => encodeMemWord x 0b11 1 mode reg

/-- The two bytes of a word as the image holds them, big-endian (R52). -/
def wordBytes (w : Word) : List Byte := [w.extractLsb' 8 8, w.extractLsb' 0 8]

/-- The words of an instruction: its opcode word. The extension words of a memory operand are the operand's
(`encodeEa` in Machine/Operands.lean). -/
def encode (i : Instr) : List Word := [encodeWord i]

/-! ### The opcode table -/

/-- spec/opcode_table.json, row by row. -/
def opcodeTable : List OpcodeRow :=
  [⟨.asr, .regImm, 0xE000, 0xF138⟩,
   ⟨.asr, .regReg, 0xE020, 0xF138⟩,
   ⟨.asr, .mem, 0xE0C0, 0xF7C0⟩,
   ⟨.asl, .regImm, 0xE100, 0xF138⟩,
   ⟨.asl, .regReg, 0xE120, 0xF138⟩,
   ⟨.asl, .mem, 0xE1C0, 0xF7C0⟩] ++
  [⟨.lsr, .regImm, 0xE008, 0xF138⟩,
   ⟨.lsr, .regReg, 0xE028, 0xF138⟩,
   ⟨.lsr, .mem, 0xE2C0, 0xF7C0⟩,
   ⟨.lsl, .regImm, 0xE108, 0xF138⟩,
   ⟨.lsl, .regReg, 0xE128, 0xF138⟩,
   ⟨.lsl, .mem, 0xE3C0, 0xF7C0⟩] ++
  [⟨.roxr, .regImm, 0xE010, 0xF138⟩,
   ⟨.roxr, .regReg, 0xE030, 0xF138⟩,
   ⟨.roxr, .mem, 0xE4C0, 0xF7C0⟩,
   ⟨.roxl, .regImm, 0xE110, 0xF138⟩,
   ⟨.roxl, .regReg, 0xE130, 0xF138⟩,
   ⟨.roxl, .mem, 0xE5C0, 0xF7C0⟩] ++
  [⟨.ror, .regImm, 0xE018, 0xF138⟩,
   ⟨.ror, .regReg, 0xE038, 0xF138⟩,
   ⟨.ror, .mem, 0xE6C0, 0xF7C0⟩,
   ⟨.rol, .regImm, 0xE118, 0xF138⟩,
   ⟨.rol, .regReg, 0xE138, 0xF138⟩,
   ⟨.rol, .mem, 0xE7C0, 0xF7C0⟩]

/-- A word is a row's when the fixed bits agree and the size code selects the row's form ("match", "mask" and the
size part of "condition"). -/
def OpcodeRow.holds (r : OpcodeRow) (w : Word) : Bool :=
  (w &&& r.mask == r.pattern) && ((sizeCode w == 3) == (r.form == .mem))

/-! ### Words given by number -/

/-- The first six bytes of the instruction whose bits are `w`, numbered as opcode_table.json numbers them: word
0 is bits 15..0, word 1 bits 31..16, word 2 bits 47..32, each stored big-endian, the first at the lowest
address; bits from `nbits` up are 0. -/
def tableBytes (nbits w : Nat) : List Byte :=
  let v := w % 2 ^ nbits
  wordBytes (BitVec.ofNat 16 v) ++ wordBytes (BitVec.ofNat 16 (v / 2 ^ 16)) ++
    wordBytes (BitVec.ofNat 16 (v / 2 ^ 32))

/-- The instruction the decoder reads from the instruction whose bits are `w`. -/
def decodeTableWord (nbits w : Nat) : Option Instr :=
  match decode (tableBytes nbits w) with
  | .ok (i, _) => some i
  | .error _ => none

end Sys2Proof
end

