-- ==== Sys2Proof/Config.lean ====
section
/-! DEFINITION. What an instance of the block fixes (the parameters of R7) and the free values: constants
without a body, so that nothing proved can depend on what they are. -/

namespace Sys2Proof

/-- When the PC-indexed mode resolves its base address (PCIDX_RESOLVE of R7, R134). -/
inductive PcidxResolve where
  | zeroDispOnly | always
  deriving DecidableEq, Repr

/-- Extension of a word immediate into the 32-bit `val` (IMM_WORD_EXT of R7, R139). -/
inductive ImmWordExt where
  | zero | sign
  deriving DecidableEq, Repr

/-- The parameters of R7, fixed per instance like strap inputs (R38). The code image, R7's fifth
parameter, is `State.img`. -/
structure Params where
  /-- ADDR_BITS: width of addresses and of the cursor's instruction pointer -/
  addrBits     : Nat
  /-- PC_REL_OFFSET: added to the extension word's address to form the PC base -/
  pcRelOffset  : Nat
  /-- PCIDX_RESOLVE -/
  pcidxResolve : PcidxResolve
  /-- IMM_WORD_EXT -/
  immWordExt   : ImmWordExt
  deriving DecidableEq, Repr

/-- The default values of R7. -/
def Params.default : Params :=
  { addrBits := 32, pcRelOffset := 2, pcidxResolve := .zeroDispOnly, immWordExt := .zero }

/-- FREE VALUE (log 2): the `val` of the n-th Immediate with an unsupported declared size, "a draw:
undefined, not a fixed value" (R140). -/
opaque Config.anyValue : Nat → Long

/-- FREE VALUE (log 11): the image an attempt sees when the caller changes the image during it; the results
are "a draw: any record, any `len` and any cursor advance a model admits for some image" (R63). -/
opaque Config.anyImage : Nat → List (Nat × BitVec 8)

end Sys2Proof
end

