-- ==== Sys2Proof/Machine/State.lean ====
section
/-! DEFINITION. What the spec gives the machine, as plain data (10_state.md): the cursor, the code image, the
outputs of the attempt, the parameters, and what the caller asks next. The 68000's own registers are no state
of this block (R26, R37). -/

namespace Sys2Proof.Machine

/-- The code image IMG: a partial map from address to byte (R25, R50), as cells with rising addresses. An
address not listed is outside the image (R56). -/
abbrev Image := List Host.Cell

/-- The canonical form of an image: addresses strictly rising, so that equal images are equal lists. -/
abbrev Image.wf (m : Image) : Prop := m.Pairwise (fun a b => a.1 < b.1)

/-- The operand variants, in the order of their codes 0 to 10 (R31). -/
inductive OperandKind where
  | dataRegister | addressRegister | indirect | indirectPostIncrement | indirectPreDecrement
  | indirectDisplacement | indirectIndexed | absoluteShort | absoluteLong | pcDisplacement | immediate
  deriving DecidableEq, Repr

/-- A decoded operand (R30). Fields a kind does not use are 0 (R32). -/
structure Operand where
  kind   : OperandKind
  dsize  : DSize
  reg    : BitVec 3
  val    : Long
  /-- `IndirectIndexed` only: the base is the PC -/
  basePc : Bool
  /-- `IndirectIndexed` only: the raw index-register field (R28) -/
  xreg   : BitVec 4
  /-- `IndirectIndexed` only: long-sized index, `e[11]` itself (90_conflicts.md C1) -/
  xlong  : Bool
  /-- `IndirectIndexed` only: the no-base-displacement flag (90_conflicts.md C3) -/
  nobase : Bool
  deriving DecidableEq, Repr

/-- The all-zero operand (R32, R34): kind code 0, size code 0. -/
def Operand.zero : Operand :=
  { kind := .dataRegister, dsize := .byte, reg := 0, val := 0, basePc := false, xreg := 0,
    xlong := false, nobase := false }

/-- The InstructionRecord (R34). -/
structure InstructionRecord where
  tag  : Tag
  nops : BitVec 2
  op0  : Operand
  op1  : Operand
  op2  : Operand
  /-- bytes consumed -/
  len  : Nat
  deriving DecidableEq, Repr

/-- The all-zero record: the value at reset and until a response (R41). Its `nops` is 0, which no record of
a success has, so it also stands for "no record" (log 9). -/
def InstructionRecord.zero : InstructionRecord :=
  { tag := .asr, nops := 0, op0 := .zero, op1 := .zero, op2 := .zero, len := 0 }

/-- The error class of a response, codes 0 to 3 (R222). -/
inductive ErrClass where
  | none | invalidAlignment | invalidAddressingMode | unsupportedOpcodeLine
  deriving DecidableEq, Repr

/-- What the caller asks next: plain data the step reads (log 7). -/
inductive Request where
  /-- nothing is asked -/
  | idle
  /-- the caller places the cursor (R21), for example back at an attempt's starting point (R253) -/
  | place (ip cnt : Nat)
  /-- one call `Decode(at)` (R210) -/
  | decodeAt (addr : Nat)
  /-- a linear scan: the next call is `Decode(at)`, while `at < stop` (R215) -/
  | scan (addr stop : Nat)
  /-- one direct call `EADecode(mode_code, r, dsize)` by a sibling family decoder (R120) -/
  | ea (modeCode : BitVec 4) (r : BitVec 3) (dsize : DSize)
  deriving DecidableEq, Repr

/-- The state of the machine (10_state.md), and the caller's next request. -/
structure State where
  /-- the parameters of R7, which no operation changes (R38) -/
  params      : Params
  /-- IMG (R25) -/
  img         : Image
  /-- CUR.ip (R20), an ADDR_BITS-bit address -/
  ip          : Nat
  /-- CUR.cnt (R20, R24) -/
  cnt         : Nat
  /-- an attempt is in progress on this cursor (R65, R251) -/
  busy        : Bool
  /-- a response has been given, and no attempt has started since; false at reset (R251). When it becomes true and when
  it stops being so is the model's choice (DESIGN CHOICE, log 18). -/
  respPending : Bool
  /-- the record of a Dispatch response (R34) -/
  record      : InstructionRecord
  /-- the byte count of a Dispatch response (R36, R214) -/
  len         : Nat
  /-- the error class of the response (R36) -/
  err         : ErrClass
  /-- the attempt emitted the UnsupportedOperandSize diagnostic (R36, R226) -/
  diag        : Bool
  /-- `ok` of an EA Decoder response (R36, R120) -/
  eaOk        : Bool
  /-- `op` of an EA Decoder response (R120) -/
  eaOp        : Operand
  /-- what the caller asks next -/
  request     : Request
  /-- the caller changes the image during the next attempt, against R63 and R254 (log 11) -/
  imgChanging : Bool
  /-- the model's own: how many free values have been drawn (log 2) -/
  draws       : Nat
  deriving DecidableEq, Repr

/-- Why the machine stops. -/
inductive Fault where
  /-- FetchOutOfImage(a) (R56, R227): raised by a fetch at address `a` that needs a byte outside the image, in
  the opcode fetch or an EA mode's extension fetch. Safe: the spec says the attempt has no response. -/
  | fetchOutOfImage (a : Nat)
  deriving DecidableEq, Repr

/-- Why the machine declines. -/
inductive Refusal where
  /-- an arm of `exec` without a meaning: none is left. Safe. -/
  | notModelled (mnemonic : String)
  /-- a request that uses the cursor while an attempt is in progress on it: "A model refuses a second attempt
  on a cursor while one is in progress" (R65, R254). That a request to place the cursor is refused too, although it starts
  no attempt, is the model's choice (log 6). Raised by the step, never by an instruction. Safe. -/
  | attemptInProgress
  deriving DecidableEq, Repr

/-- The machine right after reset (R41, R251): outputs and `cnt` 0, no response pending, no attempt in progress,
parameters at their defaults. `ip` (log 1), `img` (log 5), `eaOk` and `eaOp` (log 10), `request` (log 7),
`imgChanging` (log 11) and `draws` (log 2) are the model's choice. -/
def State.reset : State :=
  { params := .default, img := [], ip := 0, cnt := 0, busy := false, respPending := false,
    record := .zero, len := 0, err := .none, diag := false, eaOk := false, eaOp := .zero,
    request := .idle, imgChanging := false, draws := 0 }

end Sys2Proof.Machine
end

