-- ==== Sys2Proof/Machine/Ops.lean ====
section
/-! DEFINITION. The named operations every meaning goes through: the image, address arithmetic, the two
fetches of the Word Source, the start and end of an attempt, failing (the block's one kind of "exception"), and
the caller's way on after a response. -/

namespace Sys2Proof.Machine

/-! ### The image -/

/-- The byte at an address, or nothing outside the image (R25, R56). -/
def Image.read : Image → Nat → Option Byte
  | [], _ => none
  | (k, b) :: rest, a => if a = k then some b else Image.read rest a

/-- Put a byte at an address, keeping the canonical form. The block never writes (R51): this is the caller
providing the image (R252). -/
def Image.write : Image → Nat → Byte → Image
  | [], a, v => [(a, v)]
  | (k, b) :: rest, a, v =>
    if a < k then (a, v) :: (k, b) :: rest
    else if a = k then (a, v) :: rest
    else (k, b) :: Image.write rest a v

/-! ### Addresses -/

/-- Address arithmetic wraps modulo 2^ADDR_BITS (R62). -/
def wrap (p : Params) (n : Nat) : Nat := n % 2 ^ p.addrBits

/-- The address of the next fetch, `(CUR.ip + CUR.cnt) mod 2^ADDR_BITS` (R20, R53). -/
def State.fetchAddr (s : State) : Nat := wrap s.params (s.ip + s.cnt)

/-- A PC-relative address: `a + PC_REL_OFFSET + disp`, wrapped (R62, R134, R138) and held in 32 bits (log 4). -/
def pcTarget (p : Params) (a : Nat) (disp : Long) : Long :=
  BitVec.ofNat 32 (wrap p (a + p.pcRelOffset + disp.toNat))

/-! ### Reading the image -/

/-- The image an attempt reads: `img`, or a free image when the caller changes it during the attempt (R63; log 11). -/
def State.visibleImage (s : State) : Image :=
  if s.imgChanging then Config.anyImage s.draws else s.img

/-- IMG[a], with the address wrapped (R52). -/
def State.byteAt (s : State) (a : Nat) : Option Byte := s.visibleImage.read (wrap s.params a)

/-- MemRead(a, 2): big-endian (R52). -/
def State.memRead2 (s : State) (a : Nat) : Option Word :=
  match s.byteAt a, s.byteAt (a + 1) with
  | some b0, some b1 => some (b0 ++ b1)
  | _, _ => none

/-- MemRead(a, 4): big-endian (R52). -/
def State.memRead4 (s : State) (a : Nat) : Option Long :=
  match s.byteAt a, s.byteAt (a + 1), s.byteAt (a + 2), s.byteAt (a + 3) with
  | some b0, some b1, some b2, some b3 => some (b0 ++ b1 ++ b2 ++ b3)
  | _, _, _, _ => none

/-- The cursor advances by the bytes a fetch consumed (R21). -/
def State.advance (s : State) (n : Nat) : State := { s with cnt := s.cnt + n }

/-- FetchWord() (R53); it faults when a byte is outside the image (R56). -/
def fetchWord (s : State) : Except Fault (Word × State) :=
  match s.memRead2 s.fetchAddr with
  | some v => .ok (v, s.advance 2)
  | none => .error (.fetchOutOfImage s.fetchAddr)

/-- FetchLong() (R54); it faults when a byte is outside the image (R56). -/
def fetchLong (s : State) : Except Fault (Long × State) :=
  match s.memRead4 s.fetchAddr with
  | some v => .ok (v, s.advance 4)
  | none => .error (.fetchOutOfImage s.fetchAddr)

/-! ### The start of an attempt -/

/-- An attempt starts: outputs 0 until the response (R41), nothing carried over from earlier attempts (R40). The
cursor is not touched here (R250). An earlier response is no longer pending (log 18). -/
def beginAttempt (s : State) : State :=
  { s with busy := true, respPending := false, record := .zero, len := 0, err := .none,
           diag := false, eaOk := false, eaOp := .zero }

/-- The cursor at the start of a Dispatch attempt, or where the caller places it (R21, R250). -/
def placeCursor (ip cnt : Nat) (s : State) : State := { s with ip := wrap s.params ip, cnt := cnt }

/-! ### The end of an attempt -/

/-- An attempt ends with a response, which is pending from here on (log 18). A breach of R63 concerns one attempt: it is used up, and a later
one sees another free image (log 11). -/
def endAttempt (s : State) : State :=
  { s with busy := false, respPending := true, imgChanging := false,
           draws := if s.imgChanging then s.draws + 1 else s.draws }

/-- A success of the Dispatch: the record, its byte count, `err` 0 (R36, R214). -/
def respond (r : InstructionRecord) (s : State) : State :=
  endAttempt { s with record := r, len := r.len, err := .none }

/-- `fail(E)` (R11, R225): the attempt ends with `len` 0 (or `ok` 0), the error class, and no record. The cursor is
not restored (R223); no mode, vector or saved state is involved. -/
def fail (e : ErrClass) (s : State) : State :=
  endAttempt { s with record := .zero, len := 0, err := e, eaOk := false }

/-- The return from a failure, and the way on after a success, are the caller's (R215, R228): to `at + len` on
success, to `at + 1` on failure. -/
def resumeAt (p : Params) (addr len : Nat) : Nat := wrap p (if 0 < len then addr + len else addr + 1)

/-- What the caller asks after the response to its request: a scan moves on (R215), a single call is over. -/
def nextRequest (s : State) : Request :=
  match s.request with
  | .scan addr stop => .scan (resumeAt s.params addr s.len) stop
  | _ => .idle

/-- The caller takes the response and goes on. The response stays pending (`respPending` keeps its value) until the next
attempt starts: the spec says only that none is pending after reset (R251), so this is the model's choice (DESIGN CHOICE,
log 18). -/
def callerGoesOn (s : State) : State := { s with request := nextRequest s }

/-- Apply `f` to the next state, if there is one. -/
def andThen (o : Host.Outcome State Fault Refusal) (f : State → State) :
    Host.Outcome State Fault Refusal :=
  match o with
  | .next s => .next (f s)
  | .fault r => .fault r
  | .refused r => .refused r

/-! ### Loading an instruction from outside -/

/-- Put bytes at an address and the following ones, the first byte last: where the addresses wrap onto each other
(a very small ADDR_BITS), the earlier byte stays. -/
def Image.loadBytes (p : Params) (m : Image) (a : Nat) : List Byte → Image
  | [] => m
  | b :: rest => (Image.loadBytes p m (a + 1) rest).write (wrap p a) b

/-- An even address at or just below. -/
def evenDown (a : Nat) : Nat := a - a % 2

/-- Where the next `Decode` call reads its opcode word: the address the caller has asked for, else the cursor;
made even, because an odd address is rejected before any fetch (R210). -/
def State.nextDecodeAddr (s : State) : Nat :=
  match s.request with
  | .decodeAt a | .scan a _ => evenDown (wrap s.params a)
  | _ => evenDown (wrap s.params s.ip)

/-- The caller provides an instruction and asks for it to be decoded (R252; log 8): its six bytes are put in the
image where the next `Decode` call fetches, and that call is what is asked next, with no attempt in progress and
an image that does not change. A `Decode` call or an unfinished scan already at that address is left as it is. -/
def loadInstruction (s : State) (nbits w : Nat) : State :=
  let a := s.nextDecodeAddr
  { s with
    img := s.img.loadBytes s.params a (tableBytes nbits w)
    busy := false
    imgChanging := false
    request :=
      match s.request with
      | .scan addr stop => if addr = a ∧ a < stop then .scan addr stop else .decodeAt a
      | _ => .decodeAt a }

end Sys2Proof.Machine
end

