-- ==== Sys2Proof/Machine/Flags.lean ====
section
/-! DEFINITION. The status outputs as codes, and the diagnostic. The block has no condition codes and no status
register (R37): `err`, `diag` and `len = 0` are its only status. -/

namespace Sys2Proof.Machine

/-- The `err` code of an error class (R222). -/
def errCode : ErrClass → BitVec 2
  | .none => 0 | .invalidAlignment => 1 | .invalidAddressingMode => 2 | .unsupportedOpcodeLine => 3

/-- The `diag` bit (R36). -/
def diagBit (s : State) : BitVec 1 := BitVec.ofBool s.diag

/-- `diag(UnsupportedOperandSize)` with its undefined value (R140, R226): the next free value, and the state in
which it has been drawn. -/
def drawValue (s : State) : Long × State :=
  (Config.anyValue s.draws, { s with draws := s.draws + 1 })

end Sys2Proof.Machine
end

