-- ==== Sys2Proof/Machine/Operands.lean ====
section
/-! DEFINITION. Operands: the EA Decoder (41_ea_decoder.md) with every mode, the count operands of the register
form (R162, R163), and the encoder of operands into an EA pair and extension words. -/

namespace Sys2Proof.Machine

/-! ### Codes and names -/

/-- The `kind` code (R31). -/
def kindCode : OperandKind → BitVec 4
  | .dataRegister => 0 | .addressRegister => 1 | .indirect => 2 | .indirectPostIncrement => 3
  | .indirectPreDecrement => 4 | .indirectDisplacement => 5 | .indirectIndexed => 6
  | .absoluteShort => 7 | .absoluteLong => 8 | .pcDisplacement => 9 | .immediate => 10

/-- The flat register numbering for consumers that want it: `reg` or `reg + 8`; only the two register-direct kinds
have one (R27). -/
def Operand.flatId (op : Operand) : Option Nat :=
  match op.kind with
  | .dataRegister => some op.reg.toNat
  | .addressRegister => some (op.reg.toNat + 8)
  | _ => none

/-- The operand shell a call starts from: all zero, with the declared size set by the caller (R120). -/
def Operand.shell (d : DSize) : Operand := { Operand.zero with dsize := d }

/-! ### Classification -/

/-- The forms of the mode table (R123). -/
inductive EaMode where
  | dataDirect | addrDirect | indirect | postInc | preDec | disp16 | indexed
  | absShort | absLong | pcDisp | pcIndexed | immediate
  deriving DecidableEq, Repr

/-- The classifier's classes (R125). -/
inductive EaClass where
  | registerDirect | memory | pcRelative | immediate | invalid
  deriving DecidableEq, Repr

/-- R121: mode code 7 is a sub-group, selected by adding the register index. -/
def resolveMode (modeCode : BitVec 4) (r : BitVec 3) : BitVec 4 :=
  if modeCode = 7 then 7 + r.setWidth 4 else modeCode

/-- The mode table (R123); codes above 11 name no mode (R122). -/
def eaModeOf (mc : BitVec 4) : Option EaMode :=
  match mc.toNat with
  | 0 => some .dataDirect
  | 1 => some .addrDirect
  | 2 => some .indirect
  | 3 => some .postInc
  | 4 => some .preDec
  | 5 => some .disp16
  | 6 => some .indexed
  | 7 => some .absShort
  | 8 => some .absLong
  | 9 => some .pcDisp
  | 10 => some .pcIndexed
  | 11 => some .immediate
  | _ => none

/-- The class of a resolved mode code (R125). -/
def eaClassOf (mc : BitVec 4) : EaClass :=
  if mc.toNat ≤ 1 then .registerDirect
  else if mc.toNat ≤ 8 then .memory
  else if mc.toNat ≤ 10 then .pcRelative
  else if mc.toNat = 11 then .immediate
  else .invalid

/-- The EAs a memory form permits: those of the memory class (R165). -/
def permitted (mode reg : BitVec 3) : Bool :=
  eaClassOf (resolveMode (mode.setWidth 4) reg) == .memory

/-! ### Results of an EA Decoder call -/

/-- What `EADecode` answers: `(ok, op, err, diag)` (R120). -/
structure EaResult where
  ok   : Bool
  op   : Operand
  err  : ErrClass
  diag : Bool
  deriving DecidableEq, Repr

/-- A success without a diagnostic. -/
def EaResult.success (op : Operand) : EaResult := { ok := true, op := op, err := .none, diag := false }

/-- The failure of R122: no operand field but `dsize` is written (R142). -/
def EaResult.invalidMode (d : DSize) : EaResult :=
  { ok := false, op := .shell d, err := .invalidAddressingMode, diag := false }

/-- Fetch one extension word and build the operand from its address and value. -/
def withExtWord (s : State) (build : Nat → Word → Operand) : Except Fault (EaResult × State) :=
  match fetchWord s with
  | .ok (e, s') => .ok (.success (build s.fetchAddr e), s')
  | .error f => .error f

/-- Fetch one long extension and build the operand from it. -/
def withExtLong (s : State) (build : Long → Operand) : Except Fault (EaResult × State) :=
  match fetchLong s with
  | .ok (v, s') => .ok (.success (build v), s')
  | .error f => .error f

/-! ### The operand of each mode -/

/-- A register-direct or plain indirect operand: the kind and the register (R126 to R130). -/
def regOperand (k : OperandKind) (r : BitVec 3) (d : DSize) : Operand :=
  { Operand.shell d with kind := k, reg := r }

/-- An operand that is a kind and a value (R136 to R139). -/
def valOperand (k : OperandKind) (v : Long) (d : DSize) : Operand :=
  { Operand.shell d with kind := k, val := v }

/-- R131: a signed 16-bit displacement. -/
def dispOperand (r : BitVec 3) (e : Word) (d : DSize) : Operand :=
  { Operand.shell d with kind := .indirectDisplacement, reg := r, val := e.signExtend 32 }

/-- IndexedBase(base_pc, a, d8) of R134: the no-base-displacement flag and the stored value. -/
def indexedBase (p : Params) (basePc : Bool) (a : Nat) (d8 : Byte) : Bool × Long :=
  if d8 = 0 then
    (true, if basePc then pcTarget p a (d8.signExtend 32) else 0)
  else
    (false,
      if basePc && p.pcidxResolve == .always then pcTarget p a (d8.signExtend 32)
      else d8.signExtend 32)

/-- R132, R133: the indexed operand of a brief extension word `e` at address `a`. -/
def indexedOperand (p : Params) (basePc : Bool) (r : BitVec 3) (d : DSize) (a : Nat) (e : Word) :
    Operand :=
  { Operand.shell d with
    kind := .indirectIndexed
    reg := if basePc then 0 else r
    basePc := basePc
    xreg := xregField e
    xlong := xlongField e
    nobase := (indexedBase p basePc a (d8Field e)).1
    val := (indexedBase p basePc a (d8Field e)).2 }

/-- A byte immediate: the low byte, signed; the high byte is ignored (R139). -/
def immByteVal (e : Word) : Long := (e.extractLsb' 0 8).signExtend 32

/-- A word immediate, extended as IMM_WORD_EXT says (R139). -/
def immWordVal (p : Params) (e : Word) : Long :=
  match p.immWordExt with
  | .zero => e.setWidth 32
  | .sign => e.signExtend 32

/-- R139, R140: the immediate mode, sized by the declared size. -/
def resolveImmediate (d : DSize) (s : State) : Except Fault (EaResult × State) :=
  match d with
  | .byte => withExtWord s fun _ e => valOperand .immediate (immByteVal e) .byte
  | .word => withExtWord s fun _ e => valOperand .immediate (immWordVal s.params e) .word
  | .long => withExtLong s fun v => valOperand .immediate v .long
  | .other =>
    .ok ({ ok := true, op := valOperand .immediate (drawValue s).1 .other, err := .none, diag := true },
      (drawValue s).2)

/-- The operand of a mode, with the extension it fetches (R126 to R139). -/
def resolveOperand (m : EaMode) (r : BitVec 3) (d : DSize) (s : State) :
    Except Fault (EaResult × State) :=
  match m with
  | .dataDirect => .ok (.success (regOperand .dataRegister r d), s)
  | .addrDirect => .ok (.success (regOperand .addressRegister r d), s)
  | .indirect => .ok (.success (regOperand .indirect r d), s)
  | .postInc => .ok (.success (regOperand .indirectPostIncrement r d), s)
  | .preDec => .ok (.success (regOperand .indirectPreDecrement r d), s)
  | .disp16 => withExtWord s fun _ e => dispOperand r e d
  | .indexed => withExtWord s fun a e => indexedOperand s.params false r d a e
  | .absShort => withExtWord s fun _ e => valOperand .absoluteShort (e.signExtend 32) d
  | .absLong => withExtLong s fun v => valOperand .absoluteLong v d
  | .pcDisp => withExtWord s fun a e => valOperand .pcDisplacement (pcTarget s.params a (e.signExtend 32)) d
  | .pcIndexed => withExtWord s fun a e => indexedOperand s.params true r d a e
  | .immediate => resolveImmediate d s

/-- EADecode(mode_code, r, dsize) (R120 to R124): classify, then resolve; a code above 11 fails before any fetch. -/
def eaDecode (modeCode : BitVec 4) (r : BitVec 3) (d : DSize) (s : State) :
    Except Fault (EaResult × State) :=
  match eaModeOf (resolveMode modeCode r) with
  | none => .ok (.invalidMode d, s)
  | some m => resolveOperand m r d s

/-- The response of a direct EA Decoder call (R36, R120). -/
def eaRespond (res : EaResult) (s : State) : State :=
  endAttempt { s with eaOk := res.ok, eaOp := res.op, err := res.err, diag := res.diag }

/-! ### The operands of the register form -/

/-- ImmCount(c): a raw 0 denotes 8 (R163). -/
def immCount (c : BitVec 3) : Long := if c = 0 then 8 else c.setWidth 32

/-- The immediate count operand; its declared size is the word's (R162, R168). -/
def immCountOperand (c : BitVec 3) (size : DSize) : Operand := valOperand .immediate (immCount c) size

/-- A data register operand: the count register (R162) or the destination (R161). -/
def dataRegOperand (r : BitVec 3) (size : DSize) : Operand := regOperand .dataRegister r size

/-! ### Well-formed operands -/

/-- Every field the kind does not use is 0 (R30, R32). -/
def Operand.unusedZero (op : Operand) : Bool :=
  match op.kind with
  | .dataRegister | .addressRegister | .indirect | .indirectPostIncrement | .indirectPreDecrement =>
    op.val == 0 && !op.basePc && op.xreg == 0 && !op.xlong && !op.nobase
  | .indirectDisplacement => !op.basePc && op.xreg == 0 && !op.xlong && !op.nobase
  | .indirectIndexed => !op.basePc || op.reg == 0
  | .absoluteShort | .absoluteLong | .pcDisplacement | .immediate =>
    op.reg == 0 && !op.basePc && op.xreg == 0 && !op.xlong && !op.nobase

/-! ### Encoding operands -/

/-- An operand as it stands in an instruction: the EA pair of the opcode word and the extension words (R76). -/
structure EaCode where
  mode : BitVec 3
  reg  : BitVec 3
  ext  : List Word
  deriving DecidableEq, Repr

/-- A brief extension word (R72). -/
def briefWord (xreg : BitVec 4) (xlong : Bool) (unexamined : BitVec 3) (d8 : Byte) : Word :=
  xreg ++ BitVec.ofBool xlong ++ unexamined ++ d8

/-- The displacement that makes a PC-relative target, from the extension word's address `a`. -/
def pcDispOf (p : Params) (a : Nat) (target : Long) : Long := target - BitVec.ofNat 32 (a + p.pcRelOffset)

/-- The displacement byte of an indexed operand whose extension word is at `a` (R134). -/
def d8Of (p : Params) (a : Nat) (op : Operand) : Byte :=
  if op.nobase then 0
  else if op.basePc && p.pcidxResolve == .always then (pcDispOf p a op.val).setWidth 8
  else op.val.setWidth 8

/-- The words of a long, the high one first (R55). -/
def longWords (v : Long) : List Word := [v.extractLsb' 16 16, v.extractLsb' 0 16]

/-- The encoding of an operand (R76, R77) whose extension is at address `a`. `junk` fills the bits the block does not
examine: `e[10:8]` of a brief word, the high byte of a byte immediate (R72, R139). -/
def encodeEa (p : Params) (a : Nat) (junk : Byte) (op : Operand) : EaCode :=
  match op.kind with
  | .dataRegister => { mode := 0, reg := op.reg, ext := [] }
  | .addressRegister => { mode := 1, reg := op.reg, ext := [] }
  | .indirect => { mode := 2, reg := op.reg, ext := [] }
  | .indirectPostIncrement => { mode := 3, reg := op.reg, ext := [] }
  | .indirectPreDecrement => { mode := 4, reg := op.reg, ext := [] }
  | .indirectDisplacement => { mode := 5, reg := op.reg, ext := [op.val.setWidth 16] }
  | .indirectIndexed =>
    let e := briefWord op.xreg op.xlong (junk.setWidth 3) (d8Of p a op)
    if op.basePc then { mode := 7, reg := 3, ext := [e] } else { mode := 6, reg := op.reg, ext := [e] }
  | .absoluteShort => { mode := 7, reg := 0, ext := [op.val.setWidth 16] }
  | .absoluteLong => { mode := 7, reg := 1, ext := longWords op.val }
  | .pcDisplacement => { mode := 7, reg := 2, ext := [(pcDispOf p a op.val).setWidth 16] }
  | .immediate =>
    { mode := 7, reg := 4,
      ext := match op.dsize with
        | .byte => [junk ++ op.val.setWidth 8]
        | .word => [op.val.setWidth 16]
        | .long => longWords op.val
        | .other => [] }

/-- The operands that have an encoding at extension address `a`: unused fields 0, and a value the extension can
say. An Immediate of declared size other has none, since its value is undefined (R140). -/
def Operand.encodable (p : Params) (a : Nat) (op : Operand) : Bool :=
  op.unusedZero &&
  match op.kind with
  | .dataRegister | .addressRegister | .indirect | .indirectPostIncrement | .indirectPreDecrement
  | .absoluteLong => true
  | .indirectDisplacement | .absoluteShort => op.val == (op.val.setWidth 16).signExtend 32
  | .pcDisplacement => op.val == pcTarget p a (((pcDispOf p a op.val).setWidth 16).signExtend 32)
  | .indirectIndexed => (op.nobase, op.val) == indexedBase p op.basePc a (d8Of p a op)
  | .immediate =>
    match op.dsize with
    | .byte => op.val == (op.val.setWidth 8).signExtend 32
    | .word => op.val == immWordVal p (op.val.setWidth 16)
    | .long => true
    | .other => false

end Sys2Proof.Machine
end

