-- ==== Sys2Proof/Machine/LineE.lean ====
section
/-! DEFINITION. The Line-E Decoder's two forms, shared by all its instructions (R161, R166). -/

namespace Sys2Proof.Machine

/-- LineEReg(iw) (R161): the record of a register form, count first and destination second (R168). It fetches
nothing and cannot fail. -/
def lineEReg (tag : Tag) (src : Operand) (size : DSize) (dreg : BitVec 3) (s : State) :
    Host.Outcome State Fault Refusal :=
  .next (respond
    { tag := tag, nops := 2, op0 := src, op1 := dataRegOperand dreg size, op2 := .zero, len := s.cnt } s)

/-- LineEMem(iw) (R166): a refused EA fails before any fetch (R165); else the operand comes from the EA Decoder
at size word. -/
def lineEMem (tag : Tag) (mode reg : BitVec 3) (s : State) : Host.Outcome State Fault Refusal :=
  if permitted mode reg then
    match eaDecode (mode.setWidth 4) reg .word s with
    | .error f => .fault f
    | .ok (res, s') =>
      if res.ok then
        .next (respond
          { tag := tag, nops := 1, op0 := res.op, op1 := .zero, op2 := .zero, len := s'.cnt } s')
      else .next (fail res.err s')
  else .next (fail .invalidAddressingMode s)

end Sys2Proof.Machine
end

