-- ==== Sys2Proof/Machine/Rotate.lean ====
section
/-! DEFINITION. The rotates: ROXR, ROXL, ROR, ROL (R182 to R193). One definition per row of opcode_table.json. -/

namespace Sys2Proof.Machine

/-- R182: `ROXR.s #cnt,Dd`, rotate-with-extend right by an immediate count. -/
def execRoxrImm (cnt : BitVec 3) (size : DSize) (dreg : BitVec 3) (s : State) :
    Host.Outcome State Fault Refusal :=
  lineEReg .roxr (immCountOperand cnt size) size dreg s

/-- R183: `ROXR.s Dc,Dd`, rotate-with-extend right by a register count. -/
def execRoxrReg (creg : BitVec 3) (size : DSize) (dreg : BitVec 3) (s : State) :
    Host.Outcome State Fault Refusal :=
  lineEReg .roxr (dataRegOperand creg size) size dreg s

/-- R184: `ROXR.W <ea>`, rotate-with-extend right of memory. -/
def execRoxrMem (mode reg : BitVec 3) (s : State) : Host.Outcome State Fault Refusal :=
  lineEMem .roxr mode reg s

/-- R185: `ROXL.s #cnt,Dd`, rotate-with-extend left by an immediate count. -/
def execRoxlImm (cnt : BitVec 3) (size : DSize) (dreg : BitVec 3) (s : State) :
    Host.Outcome State Fault Refusal :=
  lineEReg .roxl (immCountOperand cnt size) size dreg s

/-- R186: `ROXL.s Dc,Dd`, rotate-with-extend left by a register count. -/
def execRoxlReg (creg : BitVec 3) (size : DSize) (dreg : BitVec 3) (s : State) :
    Host.Outcome State Fault Refusal :=
  lineEReg .roxl (dataRegOperand creg size) size dreg s

/-- R187: `ROXL.W <ea>`, rotate-with-extend left of memory. -/
def execRoxlMem (mode reg : BitVec 3) (s : State) : Host.Outcome State Fault Refusal :=
  lineEMem .roxl mode reg s

/-- R188: `ROR.s #cnt,Dd`, rotate right by an immediate count. -/
def execRorImm (cnt : BitVec 3) (size : DSize) (dreg : BitVec 3) (s : State) :
    Host.Outcome State Fault Refusal :=
  lineEReg .ror (immCountOperand cnt size) size dreg s

/-- R189: `ROR.s Dc,Dd`, rotate right by a register count. -/
def execRorReg (creg : BitVec 3) (size : DSize) (dreg : BitVec 3) (s : State) :
    Host.Outcome State Fault Refusal :=
  lineEReg .ror (dataRegOperand creg size) size dreg s

/-- R190: `ROR.W <ea>`, rotate right of memory. -/
def execRorMem (mode reg : BitVec 3) (s : State) : Host.Outcome State Fault Refusal :=
  lineEMem .ror mode reg s

/-- R191: `ROL.s #cnt,Dd`, rotate left by an immediate count. -/
def execRolImm (cnt : BitVec 3) (size : DSize) (dreg : BitVec 3) (s : State) :
    Host.Outcome State Fault Refusal :=
  lineEReg .rol (immCountOperand cnt size) size dreg s

/-- R192: `ROL.s Dc,Dd`, rotate left by a register count. -/
def execRolReg (creg : BitVec 3) (size : DSize) (dreg : BitVec 3) (s : State) :
    Host.Outcome State Fault Refusal :=
  lineEReg .rol (dataRegOperand creg size) size dreg s

/-- R193: `ROL.W <ea>`, rotate left of memory. -/
def execRolMem (mode reg : BitVec 3) (s : State) : Host.Outcome State Fault Refusal :=
  lineEMem .rol mode reg s

end Sys2Proof.Machine
end

