-- ==== Sys2Proof/Machine/Shift.lean ====
section
/-! DEFINITION. The shifts: ASR, ASL, LSR, LSL (R170 to R181). One definition per row of opcode_table.json. -/

namespace Sys2Proof.Machine

/-- R170: `ASR.s #cnt,Dd`, arithmetic shift right by an immediate count. -/
def execAsrImm (cnt : BitVec 3) (size : DSize) (dreg : BitVec 3) (s : State) :
    Host.Outcome State Fault Refusal :=
  lineEReg .asr (immCountOperand cnt size) size dreg s

/-- R171: `ASR.s Dc,Dd`, arithmetic shift right by a register count. -/
def execAsrReg (creg : BitVec 3) (size : DSize) (dreg : BitVec 3) (s : State) :
    Host.Outcome State Fault Refusal :=
  lineEReg .asr (dataRegOperand creg size) size dreg s

/-- R172: `ASR.W <ea>`, arithmetic shift right of memory. -/
def execAsrMem (mode reg : BitVec 3) (s : State) : Host.Outcome State Fault Refusal :=
  lineEMem .asr mode reg s

/-- R173: `ASL.s #cnt,Dd`, arithmetic shift left by an immediate count. -/
def execAslImm (cnt : BitVec 3) (size : DSize) (dreg : BitVec 3) (s : State) :
    Host.Outcome State Fault Refusal :=
  lineEReg .asl (immCountOperand cnt size) size dreg s

/-- R174: `ASL.s Dc,Dd`, arithmetic shift left by a register count. -/
def execAslReg (creg : BitVec 3) (size : DSize) (dreg : BitVec 3) (s : State) :
    Host.Outcome State Fault Refusal :=
  lineEReg .asl (dataRegOperand creg size) size dreg s

/-- R175: `ASL.W <ea>`, arithmetic shift left of memory. -/
def execAslMem (mode reg : BitVec 3) (s : State) : Host.Outcome State Fault Refusal :=
  lineEMem .asl mode reg s

/-- R176: `LSR.s #cnt,Dd`, logical shift right by an immediate count. -/
def execLsrImm (cnt : BitVec 3) (size : DSize) (dreg : BitVec 3) (s : State) :
    Host.Outcome State Fault Refusal :=
  lineEReg .lsr (immCountOperand cnt size) size dreg s

/-- R177: `LSR.s Dc,Dd`, logical shift right by a register count. -/
def execLsrReg (creg : BitVec 3) (size : DSize) (dreg : BitVec 3) (s : State) :
    Host.Outcome State Fault Refusal :=
  lineEReg .lsr (dataRegOperand creg size) size dreg s

/-- R178: `LSR.W <ea>`, logical shift right of memory. -/
def execLsrMem (mode reg : BitVec 3) (s : State) : Host.Outcome State Fault Refusal :=
  lineEMem .lsr mode reg s

/-- R179: `LSL.s #cnt,Dd`, logical shift left by an immediate count. -/
def execLslImm (cnt : BitVec 3) (size : DSize) (dreg : BitVec 3) (s : State) :
    Host.Outcome State Fault Refusal :=
  lineEReg .lsl (immCountOperand cnt size) size dreg s

/-- R180: `LSL.s Dc,Dd`, logical shift left by a register count. -/
def execLslReg (creg : BitVec 3) (size : DSize) (dreg : BitVec 3) (s : State) :
    Host.Outcome State Fault Refusal :=
  lineEReg .lsl (dataRegOperand creg size) size dreg s

/-- R181: `LSL.W <ea>`, logical shift left of memory. -/
def execLslMem (mode reg : BitVec 3) (s : State) : Host.Outcome State Fault Refusal :=
  lineEMem .lsl mode reg s

end Sys2Proof.Machine
end

