-- ==== Sys2Proof/Machine/Dispatch.lean ====
section
/-! DEFINITION. One arm per instruction: each calls its meaning. The unexamined bit 11 of a memory form is passed to
none (R80). -/

namespace Sys2Proof.Machine

def exec (i : Instr) (s : State) : Host.Outcome State Fault Refusal :=
  match i with
  | .asrImm cnt size dreg => Sys2Proof.Machine.execAsrImm cnt size dreg s
  | .asrReg creg size dreg => Sys2Proof.Machine.execAsrReg creg size dreg s
  | .asrMem _ mode reg => Sys2Proof.Machine.execAsrMem mode reg s
  | .aslImm cnt size dreg => Sys2Proof.Machine.execAslImm cnt size dreg s
  | .aslReg creg size dreg => Sys2Proof.Machine.execAslReg creg size dreg s
  | .aslMem _ mode reg => Sys2Proof.Machine.execAslMem mode reg s
  | .lsrImm cnt size dreg => Sys2Proof.Machine.execLsrImm cnt size dreg s
  | .lsrReg creg size dreg => Sys2Proof.Machine.execLsrReg creg size dreg s
  | .lsrMem _ mode reg => Sys2Proof.Machine.execLsrMem mode reg s
  | .lslImm cnt size dreg => Sys2Proof.Machine.execLslImm cnt size dreg s
  | .lslReg creg size dreg => Sys2Proof.Machine.execLslReg creg size dreg s
  | .lslMem _ mode reg => Sys2Proof.Machine.execLslMem mode reg s
  | .roxrImm cnt size dreg => Sys2Proof.Machine.execRoxrImm cnt size dreg s
  | .roxrReg creg size dreg => Sys2Proof.Machine.execRoxrReg creg size dreg s
  | .roxrMem _ mode reg => Sys2Proof.Machine.execRoxrMem mode reg s
  | .roxlImm cnt size dreg => Sys2Proof.Machine.execRoxlImm cnt size dreg s
  | .roxlReg creg size dreg => Sys2Proof.Machine.execRoxlReg creg size dreg s
  | .roxlMem _ mode reg => Sys2Proof.Machine.execRoxlMem mode reg s
  | .rorImm cnt size dreg => Sys2Proof.Machine.execRorImm cnt size dreg s
  | .rorReg creg size dreg => Sys2Proof.Machine.execRorReg creg size dreg s
  | .rorMem _ mode reg => Sys2Proof.Machine.execRorMem mode reg s
  | .rolImm cnt size dreg => Sys2Proof.Machine.execRolImm cnt size dreg s
  | .rolReg creg size dreg => Sys2Proof.Machine.execRolReg creg size dreg s
  | .rolMem _ mode reg => Sys2Proof.Machine.execRolMem mode reg s

end Sys2Proof.Machine
end

