-- ==== Sys2Proof/Machine/Attempt.lean ====
section
/-! DEFINITION. The Top-Level Dispatch (43_dispatch.md), a direct EA Decoder call, and what one request does. -/

namespace Sys2Proof.Machine

/-- Decode(at) once the attempt has started, with the cursor placed (R210): alignment, then the opcode fetch, then
the line, then the family decoder. -/
def dispatch (addr : Nat) (s : State) : Host.Outcome State Fault Refusal :=
  if addr % 2 = 1 then .next (fail .invalidAlignment s)
  else
    match fetchWord s with
    | .error f => .fault f
    | .ok (w, s') =>
      match decodeWord w with
      | .ok i => exec i s'
      | .error _ => .next (fail .unsupportedOpcodeLine s')

/-- The state in which a Dispatch attempt at `addr` starts (R41, R250). -/
def startDecode (addr : Nat) (s : State) : State := placeCursor addr 0 (beginAttempt s)

/-- A whole Dispatch attempt (R210). -/
def decodeAttempt (addr : Nat) (s : State) : Host.Outcome State Fault Refusal :=
  dispatch addr (startDecode addr s)

/-- A whole direct call of the EA Decoder (R120): the cursor goes on from where it stands (R250). -/
def eaAttempt (modeCode : BitVec 4) (r : BitVec 3) (d : DSize) (s : State) :
    Host.Outcome State Fault Refusal :=
  match eaDecode modeCode r d (beginAttempt s) with
  | .error f => .fault f
  | .ok (res, s') => .next (eaRespond res s')

/-- What one request does. A second attempt is refused while one is in progress (R65, R254), and so is placing the cursor (log 6).
With nothing asked, and at the end of a scan, nothing happens. -/
def serve (s : State) : Host.Outcome State Fault Refusal :=
  match s.request with
  | .idle => .next s
  | .place ip cnt =>
    if s.busy then .refused .attemptInProgress else .next (callerGoesOn (placeCursor ip cnt s))
  | .decodeAt addr =>
    if s.busy then .refused .attemptInProgress else andThen (decodeAttempt addr s) callerGoesOn
  | .scan addr stop =>
    if addr < stop then
      if s.busy then .refused .attemptInProgress else andThen (decodeAttempt addr s) callerGoesOn
    else .next s
  | .ea modeCode r d =>
    if s.busy then .refused .attemptInProgress else andThen (eaAttempt modeCode r d s) callerGoesOn

end Sys2Proof.Machine
end

