-- ==== Sys2Proof/Machine/Step.lean ====
section
/-! DEFINITION. One step: the caller's next request, from request to response (R6, R229). -/

namespace Sys2Proof.Machine

/-- One step of the machine: one whole transaction (log 6). -/
def step (s : State) : Host.Outcome State Fault Refusal := serve s

/-- The caller provides the instruction whose bits are `w` where the next `Decode` call fetches (log 8). -/
def State.withFetchWord (s : State) (nbits w : Nat) : State := loadInstruction s nbits w

end Sys2Proof.Machine
end

