-- ==== Sys2Proof/Safety.lean ====
section
/-! DEFINITION. What counts as a good state and a safe step, in the terms the claims use: what a record can be, the
invariant of the machine, what "the image holds these bytes" means, and the legal ends of an attempt. -/

namespace Sys2Proof.Machine

/-- The image an attempt reads holds these bytes from an address on (addresses wrapped, R62). -/
def State.holds (s : State) (a : Nat) : List Byte → Prop
  | [] => True
  | b :: rest => s.byteAt a = some b ∧ s.holds (a + 1) rest

/-- Every byte of the six that the longest instruction may need is in the image (R167). -/
def State.sixBytesReadable (s : State) (a : Nat) : Prop :=
  ∀ k < 6, (s.byteAt (a + k)).isSome = true

/-- The bytes of an instruction as they stand in the image: the opcode word and the extension words, each
big-endian (R52, R64). -/
def instrBytes (i : Instr) (ext : List Word) : List Byte := (encodeWord i :: ext).flatMap wordBytes

/-- The extension bytes of a memory operand, by its kind (R141, R167); none for another kind. -/
def memoryExtBytes : OperandKind → Option Nat
  | .indirect | .indirectPostIncrement | .indirectPreDecrement => some 0
  | .indirectDisplacement | .indirectIndexed | .absoluteShort => some 2
  | .absoluteLong => some 4
  | _ => none

/-- The operand of a memory form: a memory kind with base An, of declared size word, unused fields 0 (R166, R168). -/
def Operand.isMemoryOperand (op : Operand) : Bool :=
  (memoryExtBytes op.kind).isSome && !op.basePc && op.dsize == .word && op.unusedZero

/-- The count operand of a register form: a data register, or an immediate from 1 to 8 (R162, R163). -/
def Operand.isCount (op : Operand) : Bool :=
  op.unusedZero &&
  match op.kind with
  | .dataRegister => true
  | .immediate => decide (1 ≤ op.val.toNat ∧ op.val.toNat ≤ 8)
  | _ => false

/-- What a record can be: no record (all zero); a register form's, of two operands of one size and length 2; a memory
form's, of one operand, with the length its kind gives (R34, R161, R166 to R168). -/
def InstructionRecord.legal (r : InstructionRecord) : Prop :=
  r = .zero ∨
  (r.nops = 2 ∧ r.op0.isCount = true ∧ r.op1.kind = .dataRegister ∧ r.op1.unusedZero = true ∧
    r.op0.dsize = r.op1.dsize ∧ r.op1.dsize.encodable = true ∧ r.op2 = .zero ∧ r.len = 2) ∨
  (r.nops = 1 ∧ r.op0.isMemoryOperand = true ∧ r.op1 = .zero ∧ r.op2 = .zero ∧
    some r.len = (memoryExtBytes r.op0.kind).map (· + 2))

/-- The invariant of the machine: the image in its canonical form, the cursor an address, the outputs coherent. -/
structure State.Inv (s : State) : Prop where
  /-- addresses of the image strictly rise -/
  imgCanonical : s.img.wf
  /-- CUR.ip is an ADDR_BITS-bit address (R20) -/
  ipInRange    : s.ip < 2 ^ s.params.addrBits
  /-- the record is one the block can give -/
  recordLegal  : s.record.legal
  /-- the response's byte count is the record's (R34, R36) -/
  lenIsRecords : s.len = s.record.len
  /-- with an error there is no record (R214) -/
  errNoRecord  : s.err ≠ .none → s.record = .zero
  /-- an EA response's operand has its unused fields 0 (R32) -/
  eaOpUnused   : s.eaOp.unusedZero = true
  /-- an EA success has no error, and no Dispatch record beside it -/
  eaOkNoErr    : s.eaOk = true → s.err = .none ∧ s.record = .zero
  /-- the diagnostic accompanies a success only, of an Immediate of declared size other (R226) -/
  diagOnly     : s.diag = true → s.eaOk = true ∧ s.eaOp.kind = .immediate ∧ s.eaOp.dsize = .other

/-- A Dispatch response is a success (R258, end 1): at least 2 bytes, a record, no error. -/
def State.isSuccess (s : State) : Prop :=
  2 ≤ s.len ∧ s.len = s.cnt ∧ s.record.len = s.len ∧ (s.record.nops = 1 ∨ s.record.nops = 2) ∧ s.err = .none

/-- A Dispatch response is a failure (R258, end 2): no byte count, an error class, no record. -/
def State.isFailure (s : State) : Prop :=
  s.len = 0 ∧ s.err ≠ .none ∧ s.record = .zero

/-- Two states give the same response: every output of R36 and R120, and the cursor, which the caller reads (R39). -/
def sameResponse (s t : State) : Prop :=
  s.record = t.record ∧ s.len = t.len ∧ s.err = t.err ∧ s.diag = t.diag ∧ s.eaOk = t.eaOk ∧
  s.eaOp = t.eaOp ∧ s.ip = t.ip ∧ s.cnt = t.cnt ∧ s.respPending = t.respPending

/-- Two outcomes tell the caller the same: the same response, the same fault, or the same refusal. -/
def sameOutcome : Host.Outcome State Fault Refusal → Host.Outcome State Fault Refusal → Prop
  | .next s, .next t => sameResponse s t
  | .fault f, .fault g => f = g
  | .refused r, .refused q => r = q
  | _, _ => False

/-- A safe state: its step neither faults nor is refused. -/
def State.safe (s : State) : Prop := ∃ t, step s = .next t

/-- The caller asks for `Decode(addr)`: by a single call, or as the next call of an unfinished scan. -/
def State.asksDecode (s : State) (addr : Nat) : Prop :=
  s.request = .decodeAt addr ∨ ∃ stop, s.request = .scan addr stop ∧ addr < stop

end Sys2Proof.Machine
end

