-- ==== Sys2Proof/Certificates/Slice0/Obligations.lean ====
section
/-! DEFINITION. The statements for the provers. Each docstring names the rules of spec/ it formalises; where a rule
rests on a decision of the spec's own (92_eei_decisions.md, D<n>) or on a choice of the model's (log n), it says so. -/

namespace Sys2Proof.Expected

open Sys2Proof.Machine

/-! What the statements expect, written out from the spec and not through the model's operations. -/

/-- An operand with every field given as R30 lists them. -/
def operand (kind : OperandKind) (dsize : DSize) (reg : BitVec 3) (val : Long) : Operand :=
  { kind := kind, dsize := dsize, reg := reg, val := val, basePc := false, xreg := 0, xlong := false,
    nobase := false }

/-- An indexed operand (R30, R133). -/
def indexed (dsize : DSize) (basePc : Bool) (reg : BitVec 3) (e : Word) (nobase : Bool) (val : Long) : Operand :=
  { kind := .indirectIndexed, dsize := dsize, reg := reg, val := val, basePc := basePc,
    xreg := e.extractLsb' 12 4, xlong := e.getLsbD 11, nobase := nobase }

/-- The all-zero operand of an unused slot (R34). -/
def noOperand : Operand := operand .dataRegister .byte 0 0

/-- The all-zero record (R41). -/
def noRecord : InstructionRecord :=
  { tag := .asr, nops := 0, op0 := noOperand, op1 := noOperand, op2 := noOperand, len := 0 }

/-- The state after an attempt ends in `s`: a response is pending (when it is so is the model's choice, log 18), no attempt is
in progress. `imgChanging` and `draws` are the model's own (log 2, log 11). -/
def ended (s : State) : State :=
  { s with busy := false, respPending := true, imgChanging := false,
           draws := if s.imgChanging = true then s.draws + 1 else s.draws }

/-- The state after a success with record `r`, when `n` extension bytes were fetched. -/
def success (s : State) (n : Nat) (r : InstructionRecord) : State :=
  ended { s with cnt := s.cnt + n, record := r, len := r.len, err := .none }

/-- The state after a failure of class `e`. -/
def failure (s : State) (e : ErrClass) : State :=
  ended { s with record := noRecord, len := 0, err := e, eaOk := false }

/-- The state in which an attempt starts, with the cursor where it is. That no response is pending any more is the model's
choice (log 18). -/
def started (s : State) : State :=
  { s with busy := true, respPending := false, record := noRecord, len := 0, err := .none, diag := false,
           eaOk := false, eaOp := noOperand }

/-- The state in which a Dispatch attempt at `addr` starts (R250). -/
def startedAt (s : State) (addr : Nat) : State :=
  started { s with ip := addr % 2 ^ s.params.addrBits, cnt := 0 }

/-- The record of a register form (R161). -/
def regRecord (t : Tag) (src : Operand) (size : DSize) (dreg : BitVec 3) (len : Nat) : InstructionRecord :=
  { tag := t, nops := 2, op0 := src, op1 := operand .dataRegister size dreg 0, op2 := noOperand, len := len }

/-- The record of a memory form (R166). -/
def memRecord (t : Tag) (op : Operand) (len : Nat) : InstructionRecord :=
  { tag := t, nops := 1, op0 := op, op1 := noOperand, op2 := noOperand, len := len }

/-- The bytes at the next fetch address are these. -/
def nextBytes (s : State) (bs : List Byte) : Prop :=
  s.holds ((s.ip + s.cnt) % 2 ^ s.params.addrBits) bs

end Sys2Proof.Expected

open Sys2Proof Sys2Proof.Machine

/-! ### Encoding -/

/-- R100 to R106: each field is the slice of the word the rule gives, as a number, with the rules' examples. -/
def Obligations.FieldExtractorSlices : Prop :=
  (∀ w : Word,
    (regLo w).toNat = w.toNat % 8 ∧ (modeLo w).toNat = w.toNat / 8 % 8 ∧
    (sizeCode w).toNat = w.toNat / 64 % 4 ∧ (modeHi w).toNat = w.toNat / 64 % 8 ∧
    (regHi w).toNat = w.toNat / 512 % 8 ∧ (opcodeLine w).toNat = w.toNat / 4096 % 16 ∧
    (xregField w).toNat = w.toNat / 4096 % 16) ∧
  regLo 0xE301 = 1 ∧ modeLo 0xE3A8 = 5 ∧ sizeCode 0xE3A8 = 2 ∧ sizeCode 0xE1F8 = 3 ∧ modeHi 0xE301 = 4 ∧
  regHi 0xE301 = 1 ∧ regHi 0xEE87 = 7 ∧ opcodeLine 0xE301 = 0xE ∧ opcodeLine 0x4E71 = 4 ∧ xregField 0x9810 = 9

/-- The example words of R170 to R193, one for each row of the table (their bit layouts rest on D3 and D13), decode
to the instruction the rule names. -/
def Obligations.SpecExampleWordsDecode : Prop :=
  decodeWord 0xEE87 = .ok (.asrImm 7 .long 7) ∧ decodeWord 0xE425 = .ok (.asrReg 2 .byte 5) ∧
  decodeWord 0xE0D0 = .ok (.asrMem false 2 0) ∧ decodeWord 0xE301 = .ok (.aslImm 1 .byte 1) ∧
  decodeWord 0xE760 = .ok (.aslReg 3 .word 0) ∧ decodeWord 0xE1F8 = .ok (.aslMem false 7 0) ∧
  decodeWord 0xE048 = .ok (.lsrImm 0 .word 0) ∧ decodeWord 0xEAAE = .ok (.lsrReg 5 .long 6) ∧
  decodeWord 0xE2DC = .ok (.lsrMem false 3 4) ∧ decodeWord 0xE58B = .ok (.lslImm 2 .long 3) ∧
  decodeWord 0xE3A8 = .ok (.lslReg 1 .long 0) ∧ decodeWord 0xE3E7 = .ok (.lslMem false 4 7) ∧
  decodeWord 0xE614 = .ok (.roxrImm 3 .byte 4) ∧ decodeWord 0xEC71 = .ok (.roxrReg 6 .word 1) ∧
  decodeWord 0xE4EA = .ok (.roxrMem false 5 2) ∧ decodeWord 0xE952 = .ok (.roxlImm 4 .word 2) ∧
  decodeWord 0xE9B3 = .ok (.roxlReg 4 .long 3) ∧ decodeWord 0xE5F1 = .ok (.roxlMem false 6 1) ∧
  decodeWord 0xE058 = .ok (.rorImm 0 .word 0) ∧ decodeWord 0xEE3F = .ok (.rorReg 7 .byte 7) ∧
  decodeWord 0xE6F9 = .ok (.rorMem false 7 1) ∧ decodeWord 0xE51A = .ok (.rolImm 2 .byte 2) ∧
  decodeWord 0xE17C = .ok (.rolReg 0 .word 4) ∧ decodeWord 0xE7D7 = .ok (.rolMem false 2 7)

/-- For every well-formed instruction, with every operand at every value, decoding its encoded bytes gives it back and
leaves the bytes after it. That a memory form with a refused EA is a well-formed instruction too is the model's choice (log 13). -/
def Obligations.DecodeOfEncode : Prop :=
  ∀ (i : Instr) (rest : List Byte), i.wf = true →
    decode ((encode i).flatMap wordBytes ++ rest) = .ok (i, rest)

/-- Every word that decodes is the encoding of the instruction it decodes to, and that instruction is well formed: no
bit of an opcode word is dropped, the unexamined bit 11 included. That an instruction keeps bit 11, and that a word with a
refused EA decodes to one, is the model's choice (log 13). -/
def Obligations.EncodeOfDecode : Prop :=
  ∀ (w : Word) (i : Instr), decodeWord w = .ok i → i.wf = true ∧ encodeWord i = w

/-- opcode_table.json is exhaustive and unambiguous on line 0xE: exactly one row holds of each such word, and no row of
any other word. A row holds by its match, its mask and the size part of its condition; the condition on (mode, reg) of the
memory forms (R172, "with a permitted EA") is left out, so that a refused word is its row's word: the model's choice (log 13). -/
def Obligations.OneTableRowPerLineEWord : Prop :=
  ∀ w : Word,
    (opcodeLine w = 0xE → ∃ r ∈ opcodeTable, r.holds w = true ∧ ∀ q ∈ opcodeTable, q.holds w = true → q = r) ∧
    (opcodeLine w ≠ 0xE → ∀ q ∈ opcodeTable, q.holds w = false)

/-- The decoder, written from the fields, agrees with opcode_table.json, written as match and mask: a row holds of a word
exactly when the word decodes to an instruction of that operation and form. A row holds by its match, its mask and the size
part of its condition; the table's condition on (mode, reg) of the memory forms (R172, "with a permitted EA"; R78) is left
out. That the 352 words with a refused EA hold of their row and decode, and fail in the instruction's meaning
(`MemoryFormsRefuseOtherEas`), is the model's choice (log 13). -/
def Obligations.DecoderAgreesWithTable : Prop :=
  ∀ (w : Word) (r : OpcodeRow), r ∈ opcodeTable →
    (r.holds w = true ↔ ∃ i, decodeWord w = .ok i ∧ i.tag = r.tag ∧ i.form = r.form)

/-- R160: the 2-bit size code of a line-E word selects the form: 3 the memory form; 0, 1 and 2 a register form of size byte,
word and long. -/
def Obligations.SizeCodeSelectsForm : Prop :=
  ∀ (w : Word) (i : Instr), decodeWord w = .ok i →
    (sizeCode w = 3 → ∃ t x m r, i = .memForm t x m r) ∧
    (sizeCode w ≠ 3 → ∃ z, [DSize.byte, .word, .long][(sizeCode w).toNat]? = some z ∧
      ∃ t c r, i = .immForm t c z r ∨ i = .regForm t c z r)

/-- R75, R164 (D3, D13; V4): a register-form word and a memory-form word with the same kind selector `t` and direction
`d` decode to instructions of the same operation, whose tag code is `{t, d}`. The EA of the memory word is any EA, while V4
speaks of a valid mode and R78 says that a word with a refused EA fails: that such a word decodes to an instruction, which then
fails, is the model's choice (log 13). -/
def Obligations.SameTagInBothForms : Prop :=
  ∀ (t : BitVec 2) (d : BitVec 1) (c dreg mode reg : BitVec 3) (size : DSize) (ir : BitVec 1) (x : Bool),
    size.encodable = true →
    ∃ i j, decodeWord (encodeRegWord c d size ir t dreg) = .ok i ∧
      decodeWord (encodeMemWord x t d mode reg) = .ok j ∧ i.form ≠ .mem ∧ j.form = .mem ∧
      i.tag = j.tag ∧ tagCode i.tag = t ++ d

/-- V40, and the counts of 30_encoding.md section 5: of the words of line 0xE, 3072 are register forms; of the 1024 memory
forms 672 have a permitted EA and 352 a refused one. -/
def Obligations.LineEWordCounts : Prop :=
  ((List.range 4096).filter fun n => sizeCode (BitVec.ofNat 16 (0xE000 + n)) ≠ 3).length = 3072 ∧
  ((List.range 4096).filter fun n => sizeCode (BitVec.ofNat 16 (0xE000 + n)) = 3 ∧
    permitted (modeLo (BitVec.ofNat 16 (0xE000 + n))) (regLo (BitVec.ofNat 16 (0xE000 + n)))).length = 672 ∧
  ((List.range 4096).filter fun n => sizeCode (BitVec.ofNat 16 (0xE000 + n)) = 3 ∧
    permitted (modeLo (BitVec.ofNat 16 (0xE000 + n))) (regLo (BitVec.ofNat 16 (0xE000 + n))) = false).length = 352

/-- The codes of R12 (D12), R31 (D2), R35 and R164 (D3), R222 (D4): sizes, kinds, tags through TAG_TABLE, error classes; and the
flat numbering of the two register-direct kinds (R27, D17). -/
def Obligations.PublishedCodes : Prop :=
  (∀ d : DSize, dsizeOf (dsizeCode d) = d) ∧
  [DSize.byte, .word, .long, .other].map (fun d => (dsizeCode d).toNat) = [0, 1, 2, 3] ∧
  [OperandKind.dataRegister, .addressRegister, .indirect, .indirectPostIncrement, .indirectPreDecrement,
    .indirectDisplacement, .indirectIndexed, .absoluteShort, .absoluteLong, .pcDisplacement,
    .immediate].map (fun k => (kindCode k).toNat) = [0, 1, 2, 3, 4, 5, 6, 7, 8, 9, 10] ∧
  (∀ (t : BitVec 2) (d : BitVec 1), tagCode (lineETag t d) = t ++ d) ∧
  [Tag.asr, .asl, .lsr, .lsl, .roxr, .roxl, .ror, .rol].map (fun t => (tagCode t).toNat) =
    [0, 1, 2, 3, 4, 5, 6, 7] ∧
  [ErrClass.none, .invalidAlignment, .invalidAddressingMode, .unsupportedOpcodeLine].map
    (fun e => (errCode e).toNat) = [0, 1, 2, 3] ∧
  (∀ (r : BitVec 3) (d : DSize),
    (Expected.operand .dataRegister d r 0).flatId = some r.toNat ∧
    (Expected.operand .addressRegister d r 0).flatId = some (r.toNat + 8))

/-! ### The Word Source -/

/-- R53, R54: FetchWord reads the two bytes at `(CUR.ip + CUR.cnt) mod 2^ADDR_BITS`, the first the more significant, and
advances the cursor by 2; FetchLong reads the four bytes there and advances it by 4; nothing else changes. -/
def Obligations.FetchesReadAndAdvance : Prop :=
  (∀ (s : State) (b0 b1 : Byte), Expected.nextBytes s [b0, b1] →
    fetchWord s = .ok (b0 ++ b1, { s with cnt := s.cnt + 2 })) ∧
  (∀ (s : State) (b0 b1 b2 b3 : Byte), Expected.nextBytes s [b0, b1, b2, b3] →
    fetchLong s = .ok (b0 ++ b1 ++ b2 ++ b3, { s with cnt := s.cnt + 4 }))

/-- R55 (derived there): a long is the two words at the same place, the first the more significant, wherever the addresses
wrap. -/
def Obligations.FetchLongIsTwoFetchWords : Prop :=
  ∀ (s t : State) (v : Long), fetchLong s = .ok (v, t) ↔
    ∃ (hi lo : Word) (u : State), fetchWord s = .ok (hi, u) ∧ fetchWord u = .ok (lo, t) ∧ v = hi ++ lo

/-- R56 (D19): a fetch that needs a byte outside the image faults with FetchOutOfImage of the fetch address, whichever
byte is missing. -/
def Obligations.FetchOutsideImageFaults : Prop :=
  ∀ (s : State),
    ((∃ k < 2, s.byteAt ((s.ip + s.cnt) + k) = none) →
      fetchWord s = .error (.fetchOutOfImage ((s.ip + s.cnt) % 2 ^ s.params.addrBits))) ∧
    ((∃ k < 4, s.byteAt ((s.ip + s.cnt) + k) = none) →
      fetchLong s = .error (.fetchOutOfImage ((s.ip + s.cnt) % 2 ^ s.params.addrBits)))

/-! ### The EA Decoder -/

/-- R121: mode code 7 is the sub-group selected by adding the register index; every other code passes unchanged. -/
def Obligations.ModeSevenAddsRegisterIndex : Prop :=
  ∀ (m : BitVec 4) (r : BitVec 3),
    (resolveMode m r).toNat = if m.toNat = 7 then 7 + r.toNat else m.toNat

/-- R122 (D32), R142, R223: a resolved code above 11 fails with InvalidAddressingMode, writes no operand field but the
declared size, fetches nothing and leaves the state as it is. -/
def Obligations.InvalidModeFails : Prop :=
  ∀ (m : BitVec 4) (r : BitVec 3) (d : DSize) (s : State), 11 < (resolveMode m r).toNat →
    eaDecode m r d s =
      .ok ({ ok := false, op := Expected.operand .dataRegister d 0 0, err := .invalidAddressingMode,
             diag := false }, s)

/-- R124 (derived there; D26): mode codes 8 to 11 given directly ignore the register index, and are mode code 7 with register
index `m - 7`. -/
def Obligations.DirectModeCodesIgnoreRegister : Prop :=
  ∀ (m : BitVec 4) (r k : BitVec 3) (d : DSize) (s : State),
    8 ≤ m.toNat → m.toNat ≤ 11 → k.toNat = m.toNat - 7 → eaDecode m r d s = eaDecode 7 k d s

/-- R126, R127 (D17), R128, R129, R130: the register-direct modes and the indirect modes without extension, at every declared
size; nothing is fetched and nothing is changed. That the unused fields are 0 is R32 (D2). -/
def Obligations.EaModesWithoutExtension : Prop :=
  ∀ (r : BitVec 3) (d : DSize) (s : State),
    eaDecode 0 r d s = .ok (.success (Expected.operand .dataRegister d r 0), s) ∧
    eaDecode 1 r d s = .ok (.success (Expected.operand .addressRegister d r 0), s) ∧
    eaDecode 2 r d s = .ok (.success (Expected.operand .indirect d r 0), s) ∧
    eaDecode 3 r d s = .ok (.success (Expected.operand .indirectPostIncrement d r 0), s) ∧
    eaDecode 4 r d s = .ok (.success (Expected.operand .indirectPreDecrement d r 0), s)

/-- R131: mode 5 takes one extension word as a signed 16-bit displacement; it fails only by FetchOutOfImage (R56, D19). That the
unused fields are 0 is R32 (D2). -/
def Obligations.EaDisplacementMode : Prop :=
  ∀ (r : BitVec 3) (d : DSize) (s : State),
    (∀ b0 b1 : Byte, Expected.nextBytes s [b0, b1] →
      eaDecode 5 r d s =
        .ok (.success (Expected.operand .indirectDisplacement d r ((b0 ++ b1).signExtend 32)),
          { s with cnt := s.cnt + 2 })) ∧
    ((∃ k < 2, s.byteAt (s.ip + s.cnt + k) = none) →
      eaDecode 5 r d s = .error (.fetchOutOfImage ((s.ip + s.cnt) % 2 ^ s.params.addrBits)))

/-- R132, with R72, R133 and R134 (D6, D7, D8): mode 6 takes a brief extension word; a zero displacement sets `nobase` with
`val` 0, any other is stored sign-extended. Bits 10:8 do not matter. -/
def Obligations.EaIndexedMode : Prop :=
  ∀ (r : BitVec 3) (d : DSize) (s : State) (b0 b1 : Byte), Expected.nextBytes s [b0, b1] →
    eaDecode 6 r d s =
      .ok (.success (Expected.indexed d false r (b0 ++ b1) (b1 == 0) (b1.signExtend 32)),
        { s with cnt := s.cnt + 2 })

/-- R136, R137: absolute short sign-extends its word, absolute long stores its long verbatim; each fails only by
FetchOutOfImage (R56, D19). That the unused fields are 0 is R32 (D2). -/
def Obligations.EaAbsoluteModes : Prop :=
  (∀ (d : DSize) (s : State),
    (∀ b0 b1 : Byte, Expected.nextBytes s [b0, b1] →
      eaDecode 7 0 d s =
        .ok (.success (Expected.operand .absoluteShort d 0 ((b0 ++ b1).signExtend 32)),
          { s with cnt := s.cnt + 2 })) ∧
    ((∃ k < 2, s.byteAt (s.ip + s.cnt + k) = none) →
      eaDecode 7 0 d s = .error (.fetchOutOfImage ((s.ip + s.cnt) % 2 ^ s.params.addrBits)))) ∧
  (∀ (d : DSize) (s : State),
    (∀ b0 b1 b2 b3 : Byte, Expected.nextBytes s [b0, b1, b2, b3] →
      eaDecode 7 1 d s =
        .ok (.success (Expected.operand .absoluteLong d 0 (b0 ++ b1 ++ b2 ++ b3)),
          { s with cnt := s.cnt + 4 })) ∧
    ((∃ k < 4, s.byteAt (s.ip + s.cnt + k) = none) →
      eaDecode 7 1 d s = .error (.fetchOutOfImage ((s.ip + s.cnt) % 2 ^ s.params.addrBits))))

/-- R138 (D6), R62: the target is the extension word's address plus PC_REL_OFFSET plus the signed displacement, modulo
2^ADDR_BITS, held in 32 bits (log 4 for an ADDR_BITS other than 32); for the default ADDR_BITS it is the sum modulo 2^32. -/
def Obligations.EaPcDisplacement : Prop :=
  ∀ (d : DSize) (s : State) (b0 b1 : Byte), Expected.nextBytes s [b0, b1] →
    let disp : Long := (b0 ++ b1).signExtend 32
    let target := BitVec.ofNat 32 ((s.ip + s.cnt + s.params.pcRelOffset + disp.toNat) % 2 ^ s.params.addrBits)
    eaDecode 7 2 d s =
      .ok (.success (Expected.operand .pcDisplacement d 0 target), { s with cnt := s.cnt + 2 }) ∧
    (s.params.addrBits = 32 →
      target = BitVec.ofNat 32 (s.ip + s.cnt) + BitVec.ofNat 32 s.params.pcRelOffset + disp)

/-- R133, R134 (D6, D7, D8), R62: the PC-indexed mode. A zero displacement sets `nobase`, and `val` is the PC base; another is
stored raw, or resolved when PCIDX_RESOLVE is ALWAYS. The resolved value wraps as in `EaPcDisplacement` (log 4). -/
def Obligations.EaPcIndexed : Prop :=
  ∀ (d : DSize) (s : State) (b0 b1 : Byte), Expected.nextBytes s [b0, b1] →
    let disp : Long := b1.signExtend 32
    let target := BitVec.ofNat 32 ((s.ip + s.cnt + s.params.pcRelOffset + disp.toNat) % 2 ^ s.params.addrBits)
    eaDecode 7 3 d s =
      .ok (.success (Expected.indexed d true 0 (b0 ++ b1) (b1 == 0)
          (if b1 = 0 ∨ s.params.pcidxResolve = .always then target else disp)),
        { s with cnt := s.cnt + 2 })

/-- R139 (D10): the immediate of each supported size: the low byte signed, the word extended as IMM_WORD_EXT says, the long
verbatim. -/
def Obligations.EaImmediateSizes : Prop :=
  (∀ (s : State) (b0 b1 : Byte), Expected.nextBytes s [b0, b1] →
    eaDecode 7 4 .byte s =
      .ok (.success (Expected.operand .immediate .byte 0 (b1.signExtend 32)), { s with cnt := s.cnt + 2 }) ∧
    eaDecode 7 4 .word s =
      .ok (.success (Expected.operand .immediate .word 0
          (if s.params.immWordExt = .sign then (b0 ++ b1).signExtend 32 else (b0 ++ b1).setWidth 32)),
        { s with cnt := s.cnt + 2 })) ∧
  (∀ (s : State) (b0 b1 b2 b3 : Byte), Expected.nextBytes s [b0, b1, b2, b3] →
    eaDecode 7 4 .long s =
      .ok (.success (Expected.operand .immediate .long 0 (b0 ++ b1 ++ b2 ++ b3)), { s with cnt := s.cnt + 4 }))

/-- R140 (D11): an immediate of unsupported declared size succeeds with the diagnostic, fetches nothing and leaves the cursor;
its value is SOME value, of which nothing is said (log 2). The image, the parameters and the outputs do not change. -/
def Obligations.EaImmediateUnsupportedSize : Prop :=
  ∀ (s : State), ∃ (v : Long) (n : Nat),
    eaDecode 7 4 .other s =
      .ok ({ ok := true, op := Expected.operand .immediate .other 0 v, err := .none, diag := true },
        { s with draws := n })

/-- R33: no call of the EA Decoder changes the operand's declared size, whatever the mode, and whether it succeeds. -/
def Obligations.DeclaredSizeNeverChanged : Prop :=
  ∀ (m : BitVec 4) (r : BitVec 3) (d : DSize) (s t : State) (res : EaResult),
    eaDecode m r d s = .ok (res, t) → res.op.dsize = d

/-- R32 (D2): every field an operand's kind does not use is 0, in everything the EA Decoder answers. -/
def Obligations.UnusedOperandFieldsZero : Prop :=
  ∀ (m : BitVec 4) (r : BitVec 3) (d : DSize) (s t : State) (res : EaResult),
    eaDecode m r d s = .ok (res, t) → res.op.unusedZero = true

/-- R141 (derived there): the bytes a call adds to CUR.cnt, by resolved mode code and declared size; nothing else changes but
the model's counter of free values (log 2). -/
def Obligations.EaExtensionBytes : Prop :=
  ∀ (m : BitVec 4) (r : BitVec 3) (d : DSize) (s t : State) (res : EaResult),
    eaDecode m r d s = .ok (res, t) →
    let mc := (resolveMode m r).toNat
    let bytes :=
      if mc = 8 then 4
      else if mc = 5 ∨ mc = 6 ∨ mc = 7 ∨ mc = 9 ∨ mc = 10 then 2
      else if mc = 11 then (if d = .long then 4 else if d = .other then 0 else 2)
      else 0
    t = { s with cnt := s.cnt + bytes, draws := t.draws } ∧ (res.ok = true ↔ mc ≤ 11) ∧
      (res.diag = true ↔ mc = 11 ∧ d = .other)

/-- R76, R77 (D6, D7, D8, D10): encoding an operand and decoding it agree. For every operand that has an encoding at the next
fetch address, of every kind and at every value, with any filling of the unexamined bits: if the image holds its extension
words there, the EA Decoder answers that operand, and has consumed exactly them. -/
def Obligations.EaDecodeOfEncodedOperand : Prop :=
  ∀ (s : State) (op : Operand) (junk : Byte), op.encodable s.params s.fetchAddr = true →
    let c := encodeEa s.params s.fetchAddr junk op
    s.holds s.fetchAddr (c.ext.flatMap wordBytes) →
    eaDecode (c.mode.setWidth 4) c.reg op.dsize s =
      .ok (.success op, { s with cnt := s.cnt + 2 * c.ext.length })

/-! ### The line-E instructions -/

/-- R170, R173, R176, R179, R182, R185, R188, R191 (D3, D13, D14, D15, D27): the register form with an immediate count, of each
of the eight operations, at every count, size and register, in every state: it completes, with the count (0 read as 8)
first and the destination register second, and changes nothing else. -/
def Obligations.ImmediateCountFormsComplete : Prop :=
  ∀ (t : Tag) (c : BitVec 3) (size : DSize) (dreg : BitVec 3) (s : State),
    exec (.immForm t c size dreg) s =
      .next (Expected.success s 0 (Expected.regRecord t
        (Expected.operand .immediate size 0 (if c = 0 then 8 else BitVec.ofNat 32 c.toNat)) size dreg s.cnt))

/-- R171, R174, R177, R180, R183, R186, R189, R192 (D3, D13, D14, D15): the register form with a register count, likewise;
register 0 is D0, and count and destination may be the same register. -/
def Obligations.RegisterCountFormsComplete : Prop :=
  ∀ (t : Tag) (c : BitVec 3) (size : DSize) (dreg : BitVec 3) (s : State),
    exec (.regForm t c size dreg) s =
      .next (Expected.success s 0 (Expected.regRecord t (Expected.operand .dataRegister size c 0) size dreg s.cnt))

/-- R172, R175, R178, R181, R184, R187, R190, R193 with R166 to R168 (D3, D13, D16, D33): the memory form of each operation on the EAs
without extension, in every state: it completes with the one operand, of size word. -/
def Obligations.MemoryFormsWithoutExtension : Prop :=
  ∀ (t : Tag) (x : Bool) (r : BitVec 3) (s : State),
    exec (.memForm t x 2 r) s =
      .next (Expected.success s 0 (Expected.memRecord t (Expected.operand .indirect .word r 0) s.cnt)) ∧
    exec (.memForm t x 3 r) s =
      .next (Expected.success s 0 (Expected.memRecord t (Expected.operand .indirectPostIncrement .word r 0) s.cnt)) ∧
    exec (.memForm t x 4 r) s =
      .next (Expected.success s 0 (Expected.memRecord t (Expected.operand .indirectPreDecrement .word r 0) s.cnt))

/-- The same rules, on the EAs with one extension word: when its two bytes are in the image, the memory form completes,
2 bytes longer. -/
def Obligations.MemoryFormsWithExtensionWord : Prop :=
  ∀ (t : Tag) (x : Bool) (r : BitVec 3) (s : State) (b0 b1 : Byte), Expected.nextBytes s [b0, b1] →
    exec (.memForm t x 5 r) s =
      .next (Expected.success s 2 (Expected.memRecord t
        (Expected.operand .indirectDisplacement .word r ((b0 ++ b1).signExtend 32)) (s.cnt + 2))) ∧
    exec (.memForm t x 6 r) s =
      .next (Expected.success s 2 (Expected.memRecord t
        (Expected.indexed .word false r (b0 ++ b1) (b1 == 0) (b1.signExtend 32)) (s.cnt + 2))) ∧
    exec (.memForm t x 7 0) s =
      .next (Expected.success s 2 (Expected.memRecord t
        (Expected.operand .absoluteShort .word 0 ((b0 ++ b1).signExtend 32)) (s.cnt + 2)))

/-- The same rules, on absolute long: when its four bytes are in the image, the memory form completes, 4 bytes longer. -/
def Obligations.MemoryFormsWithExtensionLong : Prop :=
  ∀ (t : Tag) (x : Bool) (s : State) (b0 b1 b2 b3 : Byte), Expected.nextBytes s [b0, b1, b2, b3] →
    exec (.memForm t x 7 1) s =
      .next (Expected.success s 4 (Expected.memRecord t
        (Expected.operand .absoluteLong .word 0 (b0 ++ b1 ++ b2 ++ b3)) (s.cnt + 4)))

/-- R165, R166, R169 (D16): a memory form on register-direct, PC-relative, immediate or invalid EAs fails with
InvalidAddressingMode, with nothing fetched: the cursor stays. In every state, also where no byte is readable. -/
def Obligations.MemoryFormsRefuseOtherEas : Prop :=
  ∀ (t : Tag) (x : Bool) (m r : BitVec 3) (s : State), (m.toNat ≤ 1 ∨ (m = 7 ∧ 2 ≤ r.toNat)) →
    exec (.memForm t x m r) s = .next (Expected.failure s .invalidAddressingMode)

/-- R56, R166 (D19): a memory form whose EA is permitted and needs an extension byte outside the image faults with the address
of the extension, and with nothing else. -/
def Obligations.MemoryFormsFaultOutsideImage : Prop :=
  ∀ (t : Tag) (x : Bool) (m r : BitVec 3) (s : State) (n : Nat),
    (((m = 5 ∨ m = 6 ∨ (m = 7 ∧ r = 0)) ∧ n = 2) ∨ ((m = 7 ∧ r = 1) ∧ n = 4)) →
    (∃ k < n, s.byteAt (s.ip + s.cnt + k) = none) →
    exec (.memForm t x m r) s = .fault (.fetchOutOfImage ((s.ip + s.cnt) % 2 ^ s.params.addrBits))

/-- R80 (D33): bit 11 of a memory-form word is not examined, so two words that differ in it alone do the same in every state.
That they decode to two instructions (`j ≠ i`), because an instruction keeps bit 11, and that a word with a refused EA decodes to
one at all, is the model's choice (log 13). -/
def Obligations.MemoryFormBit11Ignored : Prop :=
  ∀ (w : Word) (i : Instr), decodeWord w = .ok i → i.form = .mem →
    ∃ j, decodeWord (w ^^^ 0x0800) = .ok j ∧ j ≠ i ∧ j.form = .mem ∧ j.tag = i.tag ∧
      ∀ s, exec j s = exec i s

/-- The frame of every instruction (R21, R26, R37, R51, R225): when it answers a next state, the parameters, the image, every
byte read, CUR.ip, the request, the diagnostic and the operand of an EA response are unchanged; CUR.cnt grows by the extension
fetched, 0, 2 or 4, and not at all for a register form. -/
def Obligations.InstructionFrame : Prop :=
  ∀ (i : Instr) (s t : State), exec i s = .next t →
    t.params = s.params ∧ t.img = s.img ∧ (∀ a, t.img.read a = s.img.read a) ∧ t.ip = s.ip ∧
    t.request = s.request ∧ t.diag = s.diag ∧ t.eaOp = s.eaOp ∧
    (t.cnt = s.cnt ∨ t.cnt = s.cnt + 2 ∨ t.cnt = s.cnt + 4) ∧ (i.form ≠ .mem → t.cnt = s.cnt)

/-! ### The Dispatch -/

/-- R210: `Decode(at)`, branch by branch: alignment before any fetch, then the opcode word, then the line, then the Line-E
Decoder on the fetched word. That every word of line 0xE, with a refused EA too, is an instruction is the model's choice (log 13). -/
def Obligations.DecodeFollowsItsPseudocode : Prop :=
  ∀ (addr : Nat) (s : State),
    let s0 := Expected.startedAt s addr
    (addr % 2 = 1 → decodeAttempt addr s = .next (Expected.failure s0 .invalidAlignment)) ∧
    (addr % 2 = 0 → ∀ f, fetchWord s0 = .error f → decodeAttempt addr s = .fault f) ∧
    (addr % 2 = 0 → ∀ (w : Word) (s1 : State), fetchWord s0 = .ok (w, s1) →
      (opcodeLine w ≠ 0xE → decodeAttempt addr s = .next (Expected.failure s1 .unsupportedOpcodeLine)) ∧
      (opcodeLine w = 0xE → ∃ i, decodeWord w = .ok i ∧ decodeAttempt addr s = exec i s1))

/-- A step runs the decoded instruction: asked for `Decode(addr)` at an even address, with no attempt in progress, when the two
bytes there decode to `i`, the step is `exec i` in the state where the attempt has started at `addr` and has consumed 2 bytes;
and then the caller's request moves on, and nothing else. -/
def Obligations.StepRunsDecodedInstruction : Prop :=
  ∀ (s : State) (addr : Nat) (b0 b1 : Byte) (i : Instr),
    s.asksDecode addr → s.busy = false → addr % 2 = 0 → s.holds addr [b0, b1] →
    decode [b0, b1] = .ok (i, []) →
    let s1 := { Expected.startedAt s addr with cnt := 2 }
    (∀ u, exec i s1 = .next u → step s = .next { u with request := nextRequest u }) ∧
    (∀ f, exec i s1 = .fault f → step s = .fault f)

/-- R211: every line but 0xE fails with UnsupportedOpcodeLine and `len` 0, after the opcode fetch, so CUR.cnt is 2; line 0xE goes
to the Line-E Decoder, with the opcode word consumed. That every word of line 0xE decodes to an instruction, one with a refused EA
too (R78, R79 say that it fails), is the model's choice (log 13). -/
def Obligations.OtherLinesUnsupported : Prop :=
  ∀ (s : State) (addr : Nat) (b0 b1 : Byte), addr % 2 = 0 → s.holds addr [b0, b1] →
    (b0.toNat / 16 ≠ 14 →
      ∃ t, decodeAttempt addr s = .next t ∧ t.err = .unsupportedOpcodeLine ∧ t.len = 0 ∧ t.cnt = 2) ∧
    (b0.toNat / 16 = 14 →
      ∃ i, decodeWord (b0 ++ b1) = .ok i ∧
        decodeAttempt addr s = exec i { Expected.startedAt s addr with cnt := 2 })

/-- V5 (source §8): an odd address always fails, regardless of the bytes there and even with an empty image: `len` 0, `err`
InvalidAlignment, no record (the all-zero record, log 9), CUR.ip the address, CUR.cnt 0. -/
def Obligations.OddAddressAlwaysFails : Prop :=
  ∀ (s : State) (addr : Nat), s.asksDecode addr → s.busy = false → addr % 2 = 1 →
    ∃ t, step s = .next t ∧ t.len = 0 ∧ t.err = .invalidAlignment ∧ t.record = Expected.noRecord ∧
      t.ip = addr % 2 ^ s.params.addrBits ∧ t.cnt = 0 ∧ t.diag = false ∧ t.img = s.img

/-- R214: on success `len` is CUR.cnt, which is 2, 4 or 6, and `err` is 0; on failure `len` is 0, there is no record
(the all-zero record, log 9), and `err` is one of the three classes; `diag` is always 0. -/
def Obligations.DispatchResponse : Prop :=
  ∀ (s t : State) (addr : Nat), decodeAttempt addr s = .next t →
    t.diag = false ∧
    ((t.err = .none ∧ t.len = t.cnt ∧ (t.len = 2 ∨ t.len = 4 ∨ t.len = 6) ∧ t.record.len = t.len ∧
        1 ≤ t.record.nops.toNat) ∨
      (t.len = 0 ∧ t.record = Expected.noRecord ∧
        (t.err = .invalidAlignment ∨ t.err = .unsupportedOpcodeLine ∨ t.err = .invalidAddressingMode)))

/-- R39, R223 (derived there): what CUR.cnt holds after a failed attempt: 0 for InvalidAlignment, 2 for the other two. -/
def Obligations.CursorAfterFailure : Prop :=
  ∀ (s t : State) (addr : Nat), decodeAttempt addr s = .next t → t.err ≠ .none →
    t.ip = addr % 2 ^ s.params.addrBits ∧
    (t.err = .invalidAlignment → t.cnt = 0) ∧ (t.err ≠ .invalidAlignment → t.cnt = 2)

/-- R258 (derived there), R227: every attempt ends in exactly one of three ways: a success, a failure, or the fault
FetchOutOfImage; it is never refused. That the response is then pending (`respPending`) is the model's choice (log 18). -/
def Obligations.AttemptEndsOneOfThreeWays : Prop :=
  ∀ (s : State) (addr : Nat),
    (∃ t, decodeAttempt addr s = .next t ∧ (t.isSuccess ∨ t.isFailure) ∧ ¬ (t.isSuccess ∧ t.isFailure) ∧
      t.busy = false ∧ t.respPending = true) ∨
    (∃ a, decodeAttempt addr s = .fault (.fetchOutOfImage a) ∧ addr % 2 = 0)

/-! ### Steps and the caller -/

/-- R120, R250 (D18): a direct EA Decoder call continues from the cursor as it stands, on cleared outputs; its answer stands in
the outputs, and its fault is the step's. -/
def Obligations.StepRunsDirectEaCall : Prop :=
  ∀ (s : State) (m : BitVec 4) (r : BitVec 3) (d : DSize), s.request = .ea m r d → s.busy = false →
    (∀ res u, eaDecode m r d (Expected.started s) = .ok (res, u) →
      step s = .next { Expected.ended { u with eaOk := res.ok, eaOp := res.op, err := res.err,
                                               diag := res.diag } with request := .idle }) ∧
    (∀ f, eaDecode m r d (Expected.started s) = .error f → step s = .fault f)

/-- R65, R254 (D25): a second attempt on the cursor, by `Decode` or by a direct EA Decoder call, is refused while one is in
progress. That a request to place the cursor, which is no attempt, is refused then too is the model's choice (log 6). -/
def Obligations.OverlappingAttemptRefused : Prop :=
  ∀ (s : State), s.busy = true →
    ((∃ addr, s.asksDecode addr) ∨ (∃ m r d, s.request = .ea m r d) ∨ (∃ ip cnt, s.request = .place ip cnt)) →
    step s = .refused .attemptInProgress

/-- The model's choice (log 7), on R251 and R215: with nothing asked, and at the end of a scan, a step changes nothing; and the
caller can place the cursor (R21, R253). That an earlier response stays pending through all three is log 18. -/
def Obligations.CallerIdleAndPlacing : Prop :=
  (∀ s : State, s.request = .idle → step s = .next s) ∧
  (∀ (s : State) (addr stop : Nat), s.request = .scan addr stop → stop ≤ addr → step s = .next s) ∧
  (∀ (s : State) (ip cnt : Nat), s.request = .place ip cnt → s.busy = false →
    step s = .next { s with ip := ip % 2 ^ s.params.addrBits, cnt := cnt, request := .idle })

/-- R215 (D28): after each response a linear scan goes on at `at + len` on success and at `at + 1` on failure, wrapped (V174). -/
def Obligations.ScanResynchronises : Prop :=
  ∀ (s t : State) (addr stop : Nat), s.request = .scan addr stop → addr < stop → step s = .next t →
    t.request = .scan ((addr + if t.err = .none then t.len else 1) % 2 ^ s.params.addrBits) stop

/-- R215, R216 (derived there): a failure at an even address is followed by a failure at the odd one, so a scan is two bytes on
after two steps. -/
def Obligations.ScanSkipsUndecodableWord : Prop :=
  ∀ (s t : State) (addr stop : Nat), s.request = .scan addr stop → addr % 2 = 0 → addr + 1 < stop →
    addr + 2 < 2 ^ s.params.addrBits → step s = .next t → t.err ≠ .none →
    ∃ u, Sys2Proof.core.run 2 s = .next u ∧ u.request = .scan (addr + 2) stop ∧ u.err = .invalidAlignment

/-- R216 (derived there): a scan never stays at one address. -/
def Obligations.ScanNeverStays : Prop :=
  ∀ (s t : State) (addr stop : Nat), s.request = .scan addr stop → addr < stop → 3 ≤ s.params.addrBits →
    addr < 2 ^ s.params.addrBits → step s = .next t → ∃ next, t.request = .scan next stop ∧ next ≠ addr

/-- R51: no step writes the code image; every byte of it reads as before. -/
def Obligations.ImageNeverWritten : Prop :=
  ∀ s t : State, step s = .next t → t.img = s.img ∧ ∀ a, t.img.read a = s.img.read a

/-- R38 (D20): no step changes a parameter. -/
def Obligations.ParametersNeverChange : Prop :=
  ∀ s t : State, step s = .next t → t.params = s.params

/-- R22: within one attempt CUR.cnt never decreases: neither the opcode fetch, nor an EA Decoder call, nor an instruction takes
it back. -/
def Obligations.ConsumedBytesOnlyGrow : Prop :=
  (∀ (s t : State) (w : Word), fetchWord s = .ok (w, t) → s.cnt ≤ t.cnt) ∧
  (∀ (s t : State) (v : Long), fetchLong s = .ok (v, t) → s.cnt ≤ t.cnt) ∧
  (∀ (m : BitVec 4) (r : BitVec 3) (d : DSize) (s t : State) (res : EaResult),
    eaDecode m r d s = .ok (res, t) → s.cnt ≤ t.cnt) ∧
  (∀ (i : Instr) (s t : State), exec i s = .next t → s.cnt ≤ t.cnt)

/-- R41, R251 (D18): reset: outputs and CUR.cnt 0, no response pending, no attempt in progress, the parameters of R7 at their
defaults. The other fields hold the model's choices (log 1, 2, 5, 7, 10, 11), of which nothing is said. -/
def Obligations.ResetValues : Prop :=
  let s := State.reset
  s.record = Expected.noRecord ∧ s.len = 0 ∧ s.err = .none ∧ s.diag = false ∧ s.cnt = 0 ∧
  s.respPending = false ∧ s.busy = false ∧ s.params.addrBits = 32 ∧ s.params.pcRelOffset = 2 ∧
  s.params.pcidxResolve = .zeroDispOnly ∧ s.params.immWordExt = .zero

/-! ### Headlines -/

/-- The invariant holds at reset. -/
def Obligations.ResetMeetsInvariant : Prop := State.reset.Inv

/-- Every step keeps the invariant: the image in its canonical form, CUR.ip an address, the record one the block can give (R161,
R166 to R168), no record with an error (R214), unused operand fields 0 (R32), the diagnostic only on a success (R226). -/
def Obligations.StepKeepsInvariant : Prop :=
  ∀ s t : State, s.Inv → step s = .next t → t.Inv

/-- An assembled instruction decodes to itself. For each operation, every memory operand that has an encoding, with any filling of
the unexamined bits: when the image holds the instruction's bytes at an even address and the caller asks for it, the step
answers that operation and that operand, and the length of those bytes. -/
def Obligations.AssembledMemoryInstructionDecodes : Prop :=
  ∀ (s : State) (addr : Nat) (t : Tag) (x : Bool) (op : Operand) (junk : Byte),
    op.isMemoryOperand = true → op.encodable s.params (addr + 2) = true →
    s.asksDecode addr → s.busy = false → addr % 2 = 0 →
    let c := encodeEa s.params (addr + 2) junk op
    s.holds addr (instrBytes (.memForm t x c.mode c.reg) c.ext) →
    ∃ u, step s = .next u ∧ u.record = Expected.memRecord t op (2 + 2 * c.ext.length) ∧
      u.len = 2 + 2 * c.ext.length ∧ u.cnt = u.len ∧ u.err = .none

/-- An attempt reads nothing but the bytes it fetches, and nothing is kept from earlier attempts (R25, R26, R40; D2): two states
with the same parameters, images that agree on the six bytes from `addr` (other bytes, outputs of earlier attempts, the cursor
and the operand of an earlier EA call may all differ) answer the same to `Decode(addr)`: the same response, or the same
fault. -/
def Obligations.AttemptDependsOnlyOnItsBytes : Prop :=
  ∀ (s t : State) (addr : Nat), s.params = t.params → (∀ k < 6, s.byteAt (addr + k) = t.byteAt (addr + k)) →
    s.asksDecode addr → t.asksDecode addr → s.busy = false → t.busy = false →
    sameOutcome (step s) (step t)

/-- An attempt is safe where six bytes are readable, whatever they are: the step neither faults nor is refused, and its response
is a success or a failure. -/
def Obligations.ReadableAttemptIsSafe : Prop :=
  ∀ (s : State) (addr : Nat), s.asksDecode addr → s.busy = false → s.sixBytesReadable addr →
    ∃ t, step s = .next t ∧ (t.isSuccess ∨ t.isFailure)

/-- R63 (D24), the model's reading (log 11): an attempt during which the image changes answers what the block answers for SOME
image, of which nothing is said. -/
def Obligations.ChangingImageGivesSomeImagesAnswer : Prop :=
  ∀ (s : State), s.imgChanging = true →
    ∃ m : Image, sameOutcome (step s) (step { s with img := m, imgChanging := false })
end

