-- ==== Sys2Proof/Laws/State.lean ====
section
/-! SUPPORT. What each update of the state does to each field: true by definition, so that no later proof unfolds a
record update. -/

namespace Sys2Proof.Machine

@[simp] theorem advance_params (s : State) (n : Nat) : (s.advance n).params = s.params := rfl
@[simp] theorem advance_img (s : State) (n : Nat) : (s.advance n).img = s.img := rfl
@[simp] theorem advance_ip (s : State) (n : Nat) : (s.advance n).ip = s.ip := rfl
@[simp] theorem advance_cnt (s : State) (n : Nat) : (s.advance n).cnt = s.cnt + n := rfl
@[simp] theorem advance_busy (s : State) (n : Nat) : (s.advance n).busy = s.busy := rfl
@[simp] theorem advance_respPending (s : State) (n : Nat) : (s.advance n).respPending = s.respPending := rfl
@[simp] theorem advance_record (s : State) (n : Nat) : (s.advance n).record = s.record := rfl
@[simp] theorem advance_len (s : State) (n : Nat) : (s.advance n).len = s.len := rfl
@[simp] theorem advance_err (s : State) (n : Nat) : (s.advance n).err = s.err := rfl
@[simp] theorem advance_diag (s : State) (n : Nat) : (s.advance n).diag = s.diag := rfl
@[simp] theorem advance_eaOk (s : State) (n : Nat) : (s.advance n).eaOk = s.eaOk := rfl
@[simp] theorem advance_eaOp (s : State) (n : Nat) : (s.advance n).eaOp = s.eaOp := rfl
@[simp] theorem advance_request (s : State) (n : Nat) : (s.advance n).request = s.request := rfl
@[simp] theorem advance_imgChanging (s : State) (n : Nat) : (s.advance n).imgChanging = s.imgChanging := rfl
@[simp] theorem advance_draws (s : State) (n : Nat) : (s.advance n).draws = s.draws := rfl

@[simp] theorem beginAttempt_params (s : State) : (beginAttempt s).params = s.params := rfl
@[simp] theorem beginAttempt_img (s : State) : (beginAttempt s).img = s.img := rfl
@[simp] theorem beginAttempt_ip (s : State) : (beginAttempt s).ip = s.ip := rfl
@[simp] theorem beginAttempt_cnt (s : State) : (beginAttempt s).cnt = s.cnt := rfl
@[simp] theorem beginAttempt_busy (s : State) : (beginAttempt s).busy = true := rfl
@[simp] theorem beginAttempt_respPending (s : State) : (beginAttempt s).respPending = false := rfl
@[simp] theorem beginAttempt_record (s : State) : (beginAttempt s).record = .zero := rfl
@[simp] theorem beginAttempt_len (s : State) : (beginAttempt s).len = 0 := rfl
@[simp] theorem beginAttempt_err (s : State) : (beginAttempt s).err = .none := rfl
@[simp] theorem beginAttempt_diag (s : State) : (beginAttempt s).diag = false := rfl
@[simp] theorem beginAttempt_eaOk (s : State) : (beginAttempt s).eaOk = false := rfl
@[simp] theorem beginAttempt_eaOp (s : State) : (beginAttempt s).eaOp = .zero := rfl
@[simp] theorem beginAttempt_request (s : State) : (beginAttempt s).request = s.request := rfl
@[simp] theorem beginAttempt_imgChanging (s : State) : (beginAttempt s).imgChanging = s.imgChanging := rfl
@[simp] theorem beginAttempt_draws (s : State) : (beginAttempt s).draws = s.draws := rfl

@[simp] theorem placeCursor_params (ip cnt : Nat) (s : State) : (placeCursor ip cnt s).params = s.params := rfl
@[simp] theorem placeCursor_img (ip cnt : Nat) (s : State) : (placeCursor ip cnt s).img = s.img := rfl
@[simp] theorem placeCursor_ip (ip cnt : Nat) (s : State) : (placeCursor ip cnt s).ip = wrap s.params ip := rfl
@[simp] theorem placeCursor_cnt (ip cnt : Nat) (s : State) : (placeCursor ip cnt s).cnt = cnt := rfl
@[simp] theorem placeCursor_busy (ip cnt : Nat) (s : State) : (placeCursor ip cnt s).busy = s.busy := rfl
@[simp] theorem placeCursor_respPending (ip cnt : Nat) (s : State) : (placeCursor ip cnt s).respPending = s.respPending := rfl
@[simp] theorem placeCursor_record (ip cnt : Nat) (s : State) : (placeCursor ip cnt s).record = s.record := rfl
@[simp] theorem placeCursor_len (ip cnt : Nat) (s : State) : (placeCursor ip cnt s).len = s.len := rfl
@[simp] theorem placeCursor_err (ip cnt : Nat) (s : State) : (placeCursor ip cnt s).err = s.err := rfl
@[simp] theorem placeCursor_diag (ip cnt : Nat) (s : State) : (placeCursor ip cnt s).diag = s.diag := rfl
@[simp] theorem placeCursor_eaOk (ip cnt : Nat) (s : State) : (placeCursor ip cnt s).eaOk = s.eaOk := rfl
@[simp] theorem placeCursor_eaOp (ip cnt : Nat) (s : State) : (placeCursor ip cnt s).eaOp = s.eaOp := rfl
@[simp] theorem placeCursor_request (ip cnt : Nat) (s : State) : (placeCursor ip cnt s).request = s.request := rfl
@[simp] theorem placeCursor_imgChanging (ip cnt : Nat) (s : State) : (placeCursor ip cnt s).imgChanging = s.imgChanging := rfl
@[simp] theorem placeCursor_draws (ip cnt : Nat) (s : State) : (placeCursor ip cnt s).draws = s.draws := rfl

@[simp] theorem endAttempt_params (s : State) : (endAttempt s).params = s.params := rfl
@[simp] theorem endAttempt_img (s : State) : (endAttempt s).img = s.img := rfl
@[simp] theorem endAttempt_ip (s : State) : (endAttempt s).ip = s.ip := rfl
@[simp] theorem endAttempt_cnt (s : State) : (endAttempt s).cnt = s.cnt := rfl
@[simp] theorem endAttempt_busy (s : State) : (endAttempt s).busy = false := rfl
@[simp] theorem endAttempt_respPending (s : State) : (endAttempt s).respPending = true := rfl
@[simp] theorem endAttempt_record (s : State) : (endAttempt s).record = s.record := rfl
@[simp] theorem endAttempt_len (s : State) : (endAttempt s).len = s.len := rfl
@[simp] theorem endAttempt_err (s : State) : (endAttempt s).err = s.err := rfl
@[simp] theorem endAttempt_diag (s : State) : (endAttempt s).diag = s.diag := rfl
@[simp] theorem endAttempt_eaOk (s : State) : (endAttempt s).eaOk = s.eaOk := rfl
@[simp] theorem endAttempt_eaOp (s : State) : (endAttempt s).eaOp = s.eaOp := rfl
@[simp] theorem endAttempt_request (s : State) : (endAttempt s).request = s.request := rfl
@[simp] theorem endAttempt_imgChanging (s : State) : (endAttempt s).imgChanging = false := rfl
@[simp] theorem endAttempt_draws (s : State) : (endAttempt s).draws = if s.imgChanging then s.draws + 1 else s.draws := rfl

@[simp] theorem respond_params (r : InstructionRecord) (s : State) : (respond r s).params = s.params := rfl
@[simp] theorem respond_img (r : InstructionRecord) (s : State) : (respond r s).img = s.img := rfl
@[simp] theorem respond_ip (r : InstructionRecord) (s : State) : (respond r s).ip = s.ip := rfl
@[simp] theorem respond_cnt (r : InstructionRecord) (s : State) : (respond r s).cnt = s.cnt := rfl
@[simp] theorem respond_busy (r : InstructionRecord) (s : State) : (respond r s).busy = false := rfl
@[simp] theorem respond_respPending (r : InstructionRecord) (s : State) : (respond r s).respPending = true := rfl
@[simp] theorem respond_record (r : InstructionRecord) (s : State) : (respond r s).record = r := rfl
@[simp] theorem respond_len (r : InstructionRecord) (s : State) : (respond r s).len = r.len := rfl
@[simp] theorem respond_err (r : InstructionRecord) (s : State) : (respond r s).err = .none := rfl
@[simp] theorem respond_diag (r : InstructionRecord) (s : State) : (respond r s).diag = s.diag := rfl
@[simp] theorem respond_eaOk (r : InstructionRecord) (s : State) : (respond r s).eaOk = s.eaOk := rfl
@[simp] theorem respond_eaOp (r : InstructionRecord) (s : State) : (respond r s).eaOp = s.eaOp := rfl
@[simp] theorem respond_request (r : InstructionRecord) (s : State) : (respond r s).request = s.request := rfl
@[simp] theorem respond_imgChanging (r : InstructionRecord) (s : State) : (respond r s).imgChanging = false := rfl
@[simp] theorem respond_draws (r : InstructionRecord) (s : State) : (respond r s).draws = if s.imgChanging then s.draws + 1 else s.draws := rfl

@[simp] theorem fail_params (e : ErrClass) (s : State) : (fail e s).params = s.params := rfl
@[simp] theorem fail_img (e : ErrClass) (s : State) : (fail e s).img = s.img := rfl
@[simp] theorem fail_ip (e : ErrClass) (s : State) : (fail e s).ip = s.ip := rfl
@[simp] theorem fail_cnt (e : ErrClass) (s : State) : (fail e s).cnt = s.cnt := rfl
@[simp] theorem fail_busy (e : ErrClass) (s : State) : (fail e s).busy = false := rfl
@[simp] theorem fail_respPending (e : ErrClass) (s : State) : (fail e s).respPending = true := rfl
@[simp] theorem fail_record (e : ErrClass) (s : State) : (fail e s).record = .zero := rfl
@[simp] theorem fail_len (e : ErrClass) (s : State) : (fail e s).len = 0 := rfl
@[simp] theorem fail_err (e : ErrClass) (s : State) : (fail e s).err = e := rfl
@[simp] theorem fail_diag (e : ErrClass) (s : State) : (fail e s).diag = s.diag := rfl
@[simp] theorem fail_eaOk (e : ErrClass) (s : State) : (fail e s).eaOk = false := rfl
@[simp] theorem fail_eaOp (e : ErrClass) (s : State) : (fail e s).eaOp = s.eaOp := rfl
@[simp] theorem fail_request (e : ErrClass) (s : State) : (fail e s).request = s.request := rfl
@[simp] theorem fail_imgChanging (e : ErrClass) (s : State) : (fail e s).imgChanging = false := rfl
@[simp] theorem fail_draws (e : ErrClass) (s : State) : (fail e s).draws = if s.imgChanging then s.draws + 1 else s.draws := rfl

@[simp] theorem eaRespond_params (res : EaResult) (s : State) : (eaRespond res s).params = s.params := rfl
@[simp] theorem eaRespond_img (res : EaResult) (s : State) : (eaRespond res s).img = s.img := rfl
@[simp] theorem eaRespond_ip (res : EaResult) (s : State) : (eaRespond res s).ip = s.ip := rfl
@[simp] theorem eaRespond_cnt (res : EaResult) (s : State) : (eaRespond res s).cnt = s.cnt := rfl
@[simp] theorem eaRespond_busy (res : EaResult) (s : State) : (eaRespond res s).busy = false := rfl
@[simp] theorem eaRespond_respPending (res : EaResult) (s : State) : (eaRespond res s).respPending = true := rfl
@[simp] theorem eaRespond_record (res : EaResult) (s : State) : (eaRespond res s).record = s.record := rfl
@[simp] theorem eaRespond_len (res : EaResult) (s : State) : (eaRespond res s).len = s.len := rfl
@[simp] theorem eaRespond_err (res : EaResult) (s : State) : (eaRespond res s).err = res.err := rfl
@[simp] theorem eaRespond_diag (res : EaResult) (s : State) : (eaRespond res s).diag = res.diag := rfl
@[simp] theorem eaRespond_eaOk (res : EaResult) (s : State) : (eaRespond res s).eaOk = res.ok := rfl
@[simp] theorem eaRespond_eaOp (res : EaResult) (s : State) : (eaRespond res s).eaOp = res.op := rfl
@[simp] theorem eaRespond_request (res : EaResult) (s : State) : (eaRespond res s).request = s.request := rfl
@[simp] theorem eaRespond_imgChanging (res : EaResult) (s : State) : (eaRespond res s).imgChanging = false := rfl
@[simp] theorem eaRespond_draws (res : EaResult) (s : State) : (eaRespond res s).draws = if s.imgChanging then s.draws + 1 else s.draws := rfl

@[simp] theorem drawValue_params (s : State) : (drawValue s).2.params = s.params := rfl
@[simp] theorem drawValue_img (s : State) : (drawValue s).2.img = s.img := rfl
@[simp] theorem drawValue_ip (s : State) : (drawValue s).2.ip = s.ip := rfl
@[simp] theorem drawValue_cnt (s : State) : (drawValue s).2.cnt = s.cnt := rfl
@[simp] theorem drawValue_busy (s : State) : (drawValue s).2.busy = s.busy := rfl
@[simp] theorem drawValue_respPending (s : State) : (drawValue s).2.respPending = s.respPending := rfl
@[simp] theorem drawValue_record (s : State) : (drawValue s).2.record = s.record := rfl
@[simp] theorem drawValue_len (s : State) : (drawValue s).2.len = s.len := rfl
@[simp] theorem drawValue_err (s : State) : (drawValue s).2.err = s.err := rfl
@[simp] theorem drawValue_diag (s : State) : (drawValue s).2.diag = s.diag := rfl
@[simp] theorem drawValue_eaOk (s : State) : (drawValue s).2.eaOk = s.eaOk := rfl
@[simp] theorem drawValue_eaOp (s : State) : (drawValue s).2.eaOp = s.eaOp := rfl
@[simp] theorem drawValue_request (s : State) : (drawValue s).2.request = s.request := rfl
@[simp] theorem drawValue_imgChanging (s : State) : (drawValue s).2.imgChanging = s.imgChanging := rfl
@[simp] theorem drawValue_draws (s : State) : (drawValue s).2.draws = s.draws + 1 := rfl

@[simp] theorem startDecode_params (addr : Nat) (s : State) : (startDecode addr s).params = s.params := rfl
@[simp] theorem startDecode_img (addr : Nat) (s : State) : (startDecode addr s).img = s.img := rfl
@[simp] theorem startDecode_ip (addr : Nat) (s : State) : (startDecode addr s).ip = wrap s.params addr := rfl
@[simp] theorem startDecode_cnt (addr : Nat) (s : State) : (startDecode addr s).cnt = 0 := rfl
@[simp] theorem startDecode_busy (addr : Nat) (s : State) : (startDecode addr s).busy = true := rfl
@[simp] theorem startDecode_respPending (addr : Nat) (s : State) : (startDecode addr s).respPending = false := rfl
@[simp] theorem startDecode_record (addr : Nat) (s : State) : (startDecode addr s).record = .zero := rfl
@[simp] theorem startDecode_len (addr : Nat) (s : State) : (startDecode addr s).len = 0 := rfl
@[simp] theorem startDecode_err (addr : Nat) (s : State) : (startDecode addr s).err = .none := rfl
@[simp] theorem startDecode_diag (addr : Nat) (s : State) : (startDecode addr s).diag = false := rfl
@[simp] theorem startDecode_eaOk (addr : Nat) (s : State) : (startDecode addr s).eaOk = false := rfl
@[simp] theorem startDecode_eaOp (addr : Nat) (s : State) : (startDecode addr s).eaOp = .zero := rfl
@[simp] theorem startDecode_request (addr : Nat) (s : State) : (startDecode addr s).request = s.request := rfl
@[simp] theorem startDecode_imgChanging (addr : Nat) (s : State) : (startDecode addr s).imgChanging = s.imgChanging := rfl
@[simp] theorem startDecode_draws (addr : Nat) (s : State) : (startDecode addr s).draws = s.draws := rfl

@[simp] theorem callerGoesOn_params (s : State) : (callerGoesOn s).params = s.params := rfl
@[simp] theorem callerGoesOn_img (s : State) : (callerGoesOn s).img = s.img := rfl
@[simp] theorem callerGoesOn_ip (s : State) : (callerGoesOn s).ip = s.ip := rfl
@[simp] theorem callerGoesOn_cnt (s : State) : (callerGoesOn s).cnt = s.cnt := rfl
@[simp] theorem callerGoesOn_busy (s : State) : (callerGoesOn s).busy = s.busy := rfl
@[simp] theorem callerGoesOn_respPending (s : State) : (callerGoesOn s).respPending = s.respPending := rfl
@[simp] theorem callerGoesOn_record (s : State) : (callerGoesOn s).record = s.record := rfl
@[simp] theorem callerGoesOn_len (s : State) : (callerGoesOn s).len = s.len := rfl
@[simp] theorem callerGoesOn_err (s : State) : (callerGoesOn s).err = s.err := rfl
@[simp] theorem callerGoesOn_diag (s : State) : (callerGoesOn s).diag = s.diag := rfl
@[simp] theorem callerGoesOn_eaOk (s : State) : (callerGoesOn s).eaOk = s.eaOk := rfl
@[simp] theorem callerGoesOn_eaOp (s : State) : (callerGoesOn s).eaOp = s.eaOp := rfl
@[simp] theorem callerGoesOn_request (s : State) : (callerGoesOn s).request = nextRequest s := rfl
@[simp] theorem callerGoesOn_imgChanging (s : State) : (callerGoesOn s).imgChanging = s.imgChanging := rfl
@[simp] theorem callerGoesOn_draws (s : State) : (callerGoesOn s).draws = s.draws := rfl

end Sys2Proof.Machine
end

