-- ==== Sys2Proof/Laws/Fetch.lean ====
section
/-! SUPPORT. Everything the two fetches can do (R53, R54, R56). -/

namespace Sys2Proof.Machine

theorem wrap_wrap_add (p : Params) (a b : Nat) : wrap p (wrap p a + b) = wrap p (a + b) := by
  simp [wrap, Nat.add_mod]

theorem wrap_lt (p : Params) (a : Nat) : wrap p a < 2 ^ p.addrBits :=
  Nat.mod_lt _ (Nat.two_pow_pos _)

@[simp] theorem byteAt_advance (s : State) (n a : Nat) : (s.advance n).byteAt a = s.byteAt a := rfl

/-- A byte depends on its address modulo 2^ADDR_BITS only. -/
theorem byteAt_wrap_add (s : State) (a k : Nat) : s.byteAt (wrap s.params a + k) = s.byteAt (a + k) := by
  simp [State.byteAt, wrap_wrap_add]

/-- A word fetch gives the two bytes at the fetch address and advances by 2, or faults at that address because one
of them is outside the image. -/
theorem fetchWord_cases (s : State) :
    (∃ b0 b1, s.byteAt s.fetchAddr = some b0 ∧ s.byteAt (s.fetchAddr + 1) = some b1 ∧
      fetchWord s = .ok (b0 ++ b1, s.advance 2)) ∨
    ((s.byteAt s.fetchAddr = none ∨ s.byteAt (s.fetchAddr + 1) = none) ∧
      fetchWord s = .error (.fetchOutOfImage s.fetchAddr)) := by
  unfold fetchWord State.memRead2
  cases h0 : s.byteAt s.fetchAddr with
  | none => exact .inr ⟨.inl rfl, rfl⟩
  | some b0 =>
    cases h1 : s.byteAt (s.fetchAddr + 1) with
    | none => exact .inr ⟨.inr rfl, rfl⟩
    | some b1 => exact .inl ⟨b0, b1, rfl, rfl, rfl⟩

/-- A long fetch gives the four bytes at the fetch address and advances by 4, or faults at that address. -/
theorem fetchLong_cases (s : State) :
    (∃ b0 b1 b2 b3, s.byteAt s.fetchAddr = some b0 ∧ s.byteAt (s.fetchAddr + 1) = some b1 ∧
      s.byteAt (s.fetchAddr + 2) = some b2 ∧ s.byteAt (s.fetchAddr + 3) = some b3 ∧
      fetchLong s = .ok (b0 ++ b1 ++ b2 ++ b3, s.advance 4)) ∨
    ((s.byteAt s.fetchAddr = none ∨ s.byteAt (s.fetchAddr + 1) = none ∨
        s.byteAt (s.fetchAddr + 2) = none ∨ s.byteAt (s.fetchAddr + 3) = none) ∧
      fetchLong s = .error (.fetchOutOfImage s.fetchAddr)) := by
  unfold fetchLong State.memRead4
  cases h0 : s.byteAt s.fetchAddr with
  | none => exact .inr ⟨.inl rfl, rfl⟩
  | some b0 =>
    cases h1 : s.byteAt (s.fetchAddr + 1) with
    | none => exact .inr ⟨.inr (.inl rfl), rfl⟩
    | some b1 =>
      cases h2 : s.byteAt (s.fetchAddr + 2) with
      | none => exact .inr ⟨.inr (.inr (.inl rfl)), rfl⟩
      | some b2 =>
        cases h3 : s.byteAt (s.fetchAddr + 3) with
        | none => exact .inr ⟨.inr (.inr (.inr rfl)), rfl⟩
        | some b3 => exact .inl ⟨b0, b1, b2, b3, rfl, rfl, rfl, rfl, rfl⟩

theorem fetchWord_of_bytes {s : State} {b0 b1 : Byte} (h0 : s.byteAt s.fetchAddr = some b0)
    (h1 : s.byteAt (s.fetchAddr + 1) = some b1) : fetchWord s = .ok (b0 ++ b1, s.advance 2) := by
  simp [fetchWord, State.memRead2, h0, h1]

theorem fetchLong_of_bytes {s : State} {b0 b1 b2 b3 : Byte} (h0 : s.byteAt s.fetchAddr = some b0)
    (h1 : s.byteAt (s.fetchAddr + 1) = some b1) (h2 : s.byteAt (s.fetchAddr + 2) = some b2)
    (h3 : s.byteAt (s.fetchAddr + 3) = some b3) :
    fetchLong s = .ok (b0 ++ b1 ++ b2 ++ b3, s.advance 4) := by
  simp [fetchLong, State.memRead4, h0, h1, h2, h3]

theorem fetchWord_of_missing {s : State} (h : ∃ k < 2, s.byteAt (s.fetchAddr + k) = none) :
    fetchWord s = .error (.fetchOutOfImage s.fetchAddr) := by
  obtain ⟨k, hk, h⟩ := h
  rcases fetchWord_cases s with ⟨b0, b1, h0, h1, -⟩ | ⟨-, e⟩
  · interval_cases k <;> simp_all
  · exact e

theorem fetchLong_of_missing {s : State} (h : ∃ k < 4, s.byteAt (s.fetchAddr + k) = none) :
    fetchLong s = .error (.fetchOutOfImage s.fetchAddr) := by
  obtain ⟨k, hk, h⟩ := h
  rcases fetchLong_cases s with ⟨b0, b1, b2, b3, h0, h1, h2, h3, -⟩ | ⟨-, e⟩
  · interval_cases k <;> simp_all
  · exact e

/-- The bytes at the next fetch address, counted from the cursor or from the wrapped address. -/
theorem byteAt_fetchAddr_add (s : State) (k : Nat) :
    s.byteAt (s.fetchAddr + k) = s.byteAt (s.ip + s.cnt + k) :=
  byteAt_wrap_add s (s.ip + s.cnt) k

/-- After a fetch the next bytes are the following ones, also where addresses wrap. -/
theorem byteAt_fetchAddr_advance (s : State) (n k : Nat) :
    (s.advance n).byteAt ((s.advance n).fetchAddr + k) = s.byteAt (s.fetchAddr + (n + k)) := by
  rw [byteAt_advance, byteAt_fetchAddr_add, State.fetchAddr, advance_params, byteAt_wrap_add]
  congr 1
  simp [Nat.add_assoc]

theorem fetchWord_ok {s t : State} {v : Word} (h : fetchWord s = .ok (v, t)) : t = s.advance 2 := by
  rcases fetchWord_cases s with ⟨b0, b1, -, -, e⟩ | ⟨-, e⟩ <;> rw [e] at h
  · injection h with h; exact (Prod.mk.inj h).2.symm
  · cases h

theorem fetchLong_ok {s t : State} {v : Long} (h : fetchLong s = .ok (v, t)) : t = s.advance 4 := by
  rcases fetchLong_cases s with ⟨b0, b1, b2, b3, -, -, -, -, e⟩ | ⟨-, e⟩ <;> rw [e] at h
  · injection h with h; exact (Prod.mk.inj h).2.symm
  · cases h

end Sys2Proof.Machine
end

