-- ==== Sys2Proof/Laws/Ea.lean ====
section
/-! SUPPORT. Everything an EA Decoder call can do (R120 to R143), said once. -/

namespace Sys2Proof.Machine

/-- Every field of an operand that its kind does not use is 0, for the operands the decoder builds (R32). -/
theorem regOperand_unusedZero {k : OperandKind} (r : BitVec 3) (d : DSize)
    (h : k = .dataRegister ∨ k = .addressRegister ∨ k = .indirect ∨ k = .indirectPostIncrement ∨
      k = .indirectPreDecrement) : (regOperand k r d).unusedZero = true := by
  rcases h with rfl | rfl | rfl | rfl | rfl <;> rfl

theorem valOperand_unusedZero {k : OperandKind} (v : Long) (d : DSize)
    (h : k = .absoluteShort ∨ k = .absoluteLong ∨ k = .pcDisplacement ∨ k = .immediate) :
    (valOperand k v d).unusedZero = true := by
  rcases h with rfl | rfl | rfl | rfl <;> rfl

theorem dispOperand_unusedZero (r : BitVec 3) (e : Word) (d : DSize) :
    (dispOperand r e d).unusedZero = true := rfl

theorem indexedOperand_unusedZero (p : Params) (b : Bool) (r : BitVec 3) (d : DSize) (a : Nat) (e : Word) :
    (indexedOperand p b r d a e).unusedZero = true := by
  cases b <;> rfl

/-- A mode that takes one extension word: the two bytes are there and the operand is built from them, or the call
faults. -/
theorem withExtWord_cases (s : State) (build : Nat → Word → Operand) :
    (∃ b0 b1, s.byteAt s.fetchAddr = some b0 ∧ s.byteAt (s.fetchAddr + 1) = some b1 ∧
      withExtWord s build = .ok (.success (build s.fetchAddr (b0 ++ b1)), s.advance 2)) ∨
    withExtWord s build = .error (.fetchOutOfImage s.fetchAddr) := by
  unfold withExtWord
  rcases fetchWord_cases s with ⟨b0, b1, h0, h1, e⟩ | ⟨-, e⟩ <;> rw [e]
  · exact .inl ⟨b0, b1, h0, h1, rfl⟩
  · exact .inr rfl

/-- The same for a long extension. -/
theorem withExtLong_cases (s : State) (build : Long → Operand) :
    (∃ b0 b1 b2 b3, s.byteAt s.fetchAddr = some b0 ∧ s.byteAt (s.fetchAddr + 1) = some b1 ∧
      s.byteAt (s.fetchAddr + 2) = some b2 ∧ s.byteAt (s.fetchAddr + 3) = some b3 ∧
      withExtLong s build = .ok (.success (build (b0 ++ b1 ++ b2 ++ b3)), s.advance 4)) ∨
    withExtLong s build = .error (.fetchOutOfImage s.fetchAddr) := by
  unfold withExtLong
  rcases fetchLong_cases s with ⟨b0, b1, b2, b3, h0, h1, h2, h3, e⟩ | ⟨-, e⟩ <;> rw [e]
  · exact .inl ⟨b0, b1, b2, b3, h0, h1, h2, h3, rfl⟩
  · exact .inr rfl

theorem withExtWord_of_bytes {s : State} {b0 b1 : Byte} (h0 : s.byteAt s.fetchAddr = some b0)
    (h1 : s.byteAt (s.fetchAddr + 1) = some b1) (build : Nat → Word → Operand) :
    withExtWord s build = .ok (.success (build s.fetchAddr (b0 ++ b1)), s.advance 2) := by
  rw [withExtWord, fetchWord_of_bytes h0 h1]

theorem withExtLong_of_bytes {s : State} {b0 b1 b2 b3 : Byte} (h0 : s.byteAt s.fetchAddr = some b0)
    (h1 : s.byteAt (s.fetchAddr + 1) = some b1) (h2 : s.byteAt (s.fetchAddr + 2) = some b2)
    (h3 : s.byteAt (s.fetchAddr + 3) = some b3) (build : Long → Operand) :
    withExtLong s build = .ok (.success (build (b0 ++ b1 ++ b2 ++ b3)), s.advance 4) := by
  rw [withExtLong, fetchLong_of_bytes h0 h1 h2 h3]

theorem withExtWord_of_missing {s : State} (h : ∃ k < 2, s.byteAt (s.fetchAddr + k) = none)
    (build : Nat → Word → Operand) :
    withExtWord s build = .error (.fetchOutOfImage s.fetchAddr) := by
  rw [withExtWord, fetchWord_of_missing h]

theorem withExtLong_of_missing {s : State} (h : ∃ k < 4, s.byteAt (s.fetchAddr + k) = none)
    (build : Long → Operand) :
    withExtLong s build = .error (.fetchOutOfImage s.fetchAddr) := by
  rw [withExtLong, fetchLong_of_missing h]

/-! ### The modes that fetch, as the EA pair of an opcode word selects them (R76) -/

section
variable (r : BitVec 3) (d : DSize) (s : State)

theorem eaDecode_disp16 : eaDecode 5 r d s = withExtWord s fun _ e => dispOperand r e d := rfl
theorem eaDecode_indexed :
    eaDecode 6 r d s = withExtWord s fun a e => indexedOperand s.params false r d a e := rfl
theorem eaDecode_absShort :
    eaDecode 7 0 d s = withExtWord s fun _ e => valOperand .absoluteShort (e.signExtend 32) d := rfl
theorem eaDecode_absLong : eaDecode 7 1 d s = withExtLong s fun v => valOperand .absoluteLong v d := rfl
theorem eaDecode_pcDisp :
    eaDecode 7 2 d s = withExtWord s fun a e =>
      valOperand .pcDisplacement (pcTarget s.params a (e.signExtend 32)) d := rfl
theorem eaDecode_pcIndexed :
    eaDecode 7 3 d s = withExtWord s fun a e => indexedOperand s.params true 0 d a e := rfl
theorem eaDecode_immediate : eaDecode 7 4 d s = resolveImmediate d s := rfl

end

/-- The low byte of a word made of two bytes is the second. -/
theorem append_low (b0 b1 : Byte) : (b0 ++ b1 : Word).extractLsb' 0 8 = b1 := by
  apply BitVec.eq_of_getLsbD_eq
  intro i hi
  rw [BitVec.getLsbD_extractLsb', BitVec.getLsbD_append]
  simp [hi]

theorem d8Field_append (b0 b1 : Byte) : d8Field (b0 ++ b1) = b1 := append_low b0 b1

/-- A PC-relative target, counted from the cursor (R134, R138). -/
theorem pcTarget_fetchAddr (s : State) (disp : Long) :
    pcTarget s.params s.fetchAddr disp =
      BitVec.ofNat 32 ((s.ip + s.cnt + s.params.pcRelOffset + disp.toNat) % 2 ^ s.params.addrBits) := by
  simp only [pcTarget, wrap, State.fetchAddr]
  congr 1
  rw [Nat.add_assoc, Nat.mod_add_mod, ← Nat.add_assoc]

/-- The permitted EAs of a memory form are the seven memory modes (R165). -/
theorem permitted_mode {mode reg : BitVec 3} (h : permitted mode reg = true) :
    eaModeOf (resolveMode (mode.setWidth 4) reg) = some .indirect ∨
    eaModeOf (resolveMode (mode.setWidth 4) reg) = some .postInc ∨
    eaModeOf (resolveMode (mode.setWidth 4) reg) = some .preDec ∨
    eaModeOf (resolveMode (mode.setWidth 4) reg) = some .disp16 ∨
    eaModeOf (resolveMode (mode.setWidth 4) reg) = some .indexed ∨
    eaModeOf (resolveMode (mode.setWidth 4) reg) = some .absShort ∨
    eaModeOf (resolveMode (mode.setWidth 4) reg) = some .absLong := by
  revert mode reg
  decide

end Sys2Proof.Machine
end

