-- ==== Sys2Proof/Laws/Exec.lean ====
section
/-! SUPPORT. What an EA Decoder call, an instruction, an attempt and a step can do: one inversion lemma each. -/

namespace Sys2Proof.Machine

/-! ### The EA Decoder -/

/-- What a mode that resolves can answer: a plain success after 0, 2 or 4 extension bytes, with the declared size kept
and unused fields 0; or the undefined immediate with its diagnostic. -/
theorem resolveOperand_ok {m : EaMode} {r : BitVec 3} {d : DSize} {s t : State} {res : EaResult}
    (h : resolveOperand m r d s = .ok (res, t)) :
    (∃ op n, res = .success op ∧ op.dsize = d ∧ op.unusedZero = true ∧ (n = 0 ∨ n = 2 ∨ n = 4) ∧
      t = s.advance n) ∨
    (m = .immediate ∧ d = .other ∧ t = (drawValue s).2 ∧
      res = { ok := true, op := valOperand .immediate (drawValue s).1 .other, err := .none, diag := true }) := by
  have word : ∀ {build : Nat → Word → Operand}, withExtWord s build = .ok (res, t) →
      (∀ a e, (build a e).dsize = d ∧ (build a e).unusedZero = true) →
      ∃ op n, res = .success op ∧ op.dsize = d ∧ op.unusedZero = true ∧ (n = 0 ∨ n = 2 ∨ n = 4) ∧
        t = s.advance n := by
    intro build hb hop
    rcases withExtWord_cases s build with ⟨b0, b1, -, -, e⟩ | e <;> rw [e] at hb
    · cases hb
      exact ⟨_, 2, rfl, (hop _ _).1, (hop _ _).2, by simp, rfl⟩
    · cases hb
  have long : ∀ {build : Long → Operand}, withExtLong s build = .ok (res, t) →
      (∀ v, (build v).dsize = d ∧ (build v).unusedZero = true) →
      ∃ op n, res = .success op ∧ op.dsize = d ∧ op.unusedZero = true ∧ (n = 0 ∨ n = 2 ∨ n = 4) ∧
        t = s.advance n := by
    intro build hb hop
    rcases withExtLong_cases s build with ⟨b0, b1, b2, b3, -, -, -, -, e⟩ | e <;> rw [e] at hb
    · cases hb
      exact ⟨_, 4, rfl, (hop _).1, (hop _).2, by simp, rfl⟩
    · cases hb
  cases m <;> simp only [resolveOperand] at h
  case dataDirect | addrDirect | indirect | postInc | preDec =>
    cases h
    exact .inl ⟨_, 0, rfl, rfl, regOperand_unusedZero _ _ (by simp), by simp, rfl⟩
  case disp16 => exact .inl (word h fun _ _ => ⟨rfl, dispOperand_unusedZero _ _ _⟩)
  case indexed | pcIndexed => exact .inl (word h fun _ _ => ⟨rfl, indexedOperand_unusedZero _ _ _ _ _ _⟩)
  case absShort | pcDisp => exact .inl (word h fun _ _ => ⟨rfl, valOperand_unusedZero _ _ (by simp)⟩)
  case absLong => exact .inl (long h fun _ => ⟨rfl, valOperand_unusedZero _ _ (by simp)⟩)
  case immediate =>
    cases d <;> simp only [resolveImmediate] at h
    case byte | word => exact .inl (word h fun _ _ => ⟨rfl, valOperand_unusedZero _ _ (by simp)⟩)
    case long => exact .inl (long h fun _ => ⟨rfl, valOperand_unusedZero _ _ (by simp)⟩)
    case other => cases h; exact .inr ⟨rfl, rfl, rfl, rfl⟩

/-- What an EA Decoder call can answer: the failure of R122, or what its mode answers. -/
theorem eaDecode_cases (modeCode : BitVec 4) (r : BitVec 3) (d : DSize) (s : State) :
    (eaModeOf (resolveMode modeCode r) = none ∧ eaDecode modeCode r d s = .ok (.invalidMode d, s)) ∨
    (∃ m, eaModeOf (resolveMode modeCode r) = some m ∧
      eaDecode modeCode r d s = resolveOperand m r d s) := by
  unfold eaDecode
  cases h : eaModeOf (resolveMode modeCode r) with
  | none => exact .inl ⟨rfl, rfl⟩
  | some m => exact .inr ⟨m, rfl, rfl⟩

/-- A mode faults only by the fetch of its extension. -/
theorem resolveOperand_error {m : EaMode} {r : BitVec 3} {d : DSize} {s : State} {f : Fault}
    (h : resolveOperand m r d s = .error f) : f = .fetchOutOfImage s.fetchAddr := by
  have word : ∀ {build : Nat → Word → Operand}, withExtWord s build = .error f →
      f = .fetchOutOfImage s.fetchAddr := by
    intro build hb
    rcases withExtWord_cases s build with ⟨b0, b1, -, -, e⟩ | e <;> rw [e] at hb <;> cases hb
    rfl
  have long : ∀ {build : Long → Operand}, withExtLong s build = .error f →
      f = .fetchOutOfImage s.fetchAddr := by
    intro build hb
    rcases withExtLong_cases s build with ⟨b0, b1, b2, b3, -, -, -, -, e⟩ | e <;> rw [e] at hb <;> cases hb
    rfl
  cases m <;> simp only [resolveOperand] at h
  case disp16 | indexed | pcIndexed | absShort | pcDisp => exact word h
  case absLong => exact long h
  case immediate =>
    cases d <;> simp only [resolveImmediate] at h
    case byte | word => exact word h
    case long => exact long h
    all_goals cases h
  all_goals cases h

/-! ### Instructions -/

/-- Every instruction is the row of its tag in its form. -/
theorem instr_forms (i : Instr) :
    (∃ c z r, i = .immForm i.tag c z r) ∨ (∃ c z r, i = .regForm i.tag c z r) ∨
    (∃ x m r, i = .memForm i.tag x m r) := by
  cases i
  all_goals first
    | exact .inl ⟨_, _, _, rfl⟩
    | exact .inr (.inl ⟨_, _, _, rfl⟩)
    | exact .inr (.inr ⟨_, _, _, rfl⟩)

theorem exec_immForm (t : Tag) (c : BitVec 3) (z : DSize) (r : BitVec 3) (s : State) :
    exec (.immForm t c z r) s = lineEReg t (immCountOperand c z) z r s := by cases t <;> rfl

theorem exec_regForm (t : Tag) (c : BitVec 3) (z : DSize) (r : BitVec 3) (s : State) :
    exec (.regForm t c z r) s = lineEReg t (dataRegOperand c z) z r s := by cases t <;> rfl

theorem exec_memForm (t : Tag) (x : Bool) (m r : BitVec 3) (s : State) :
    exec (.memForm t x m r) s = lineEMem t m r s := by cases t <;> rfl

/-- What a memory form can do: refuse its EA before any fetch, fault in the extension fetch, or answer the record of its
operand after 0, 2 or 4 extension bytes. -/
theorem lineEMem_cases (tag : Tag) (mode reg : BitVec 3) (s : State) :
    (permitted mode reg = false ∧ lineEMem tag mode reg s = .next (fail .invalidAddressingMode s)) ∨
    (permitted mode reg = true ∧ lineEMem tag mode reg s = .fault (.fetchOutOfImage s.fetchAddr)) ∨
    (permitted mode reg = true ∧ ∃ op n,
      eaDecode (mode.setWidth 4) reg .word s = .ok (.success op, s.advance n) ∧
      op.dsize = .word ∧ op.unusedZero = true ∧ (n = 0 ∨ n = 2 ∨ n = 4) ∧
      lineEMem tag mode reg s =
        .next (respond
          { tag := tag, nops := 1, op0 := op, op1 := .zero, op2 := .zero, len := s.cnt + n } (s.advance n))) := by
  unfold lineEMem
  cases hp : permitted mode reg with
  | false => exact .inl ⟨rfl, rfl⟩
  | true =>
    refine .inr ?_
    rcases eaDecode_cases (mode.setWidth 4) reg .word s with ⟨hm, -⟩ | ⟨m, hm, he⟩
    · have := permitted_mode hp
      simp [hm] at this
    · cases hr : resolveOperand m reg .word s with
      | error f =>
        rw [he, hr, resolveOperand_error hr]
        exact .inl ⟨rfl, rfl⟩
      | ok p =>
        obtain ⟨res, t⟩ := p
        rcases resolveOperand_ok hr with ⟨op, n, rfl, hd, hu, hn, rfl⟩ | ⟨-, hd, -⟩
        · rw [he, hr]
          exact .inr ⟨rfl, op, n, rfl, hd, hu, hn, rfl⟩
        · cases hd

/-- The operand of a memory form is a memory operand, and its kind gives the extension it took (R141, R166). -/
theorem permitted_operand {mode reg : BitVec 3} {s t : State} {res : EaResult} (hp : permitted mode reg = true)
    (h : eaDecode (mode.setWidth 4) reg .word s = .ok (res, t)) :
    ∃ n, t = s.advance n ∧ memoryExtBytes res.op.kind = some n ∧ res.op.basePc = false := by
  have word : ∀ {build : Nat → Word → Operand}, withExtWord s build = .ok (res, t) →
      (∀ a e, memoryExtBytes (build a e).kind = some 2 ∧ (build a e).basePc = false) →
      ∃ n, t = s.advance n ∧ memoryExtBytes res.op.kind = some n ∧ res.op.basePc = false := by
    intro build hb hop
    rcases withExtWord_cases s build with ⟨b0, b1, -, -, e⟩ | e <;> rw [e] at hb <;> cases hb
    exact ⟨2, rfl, hop _ _⟩
  rcases permitted_mode hp with e | e | e | e | e | e | e <;>
    simp only [eaDecode, e, resolveOperand] at h
  iterate 3 cases h; exact ⟨0, rfl, rfl, rfl⟩
  iterate 3 exact word h fun _ _ => ⟨rfl, rfl⟩
  · rcases withExtLong_cases s fun v => valOperand .absoluteLong v .word with
      ⟨b0, b1, b2, b3, -, -, -, -, e'⟩ | e' <;> rw [e'] at h <;> cases h
    exact ⟨4, rfl, rfl, rfl⟩

end Sys2Proof.Machine
end

