-- ==== Sys2Proof/Laws/Image.lean ====
section
/-! SUPPORT. The image: reading back what was written, leaving other addresses alone, keeping the canonical form. -/

namespace Sys2Proof.Machine

theorem read_write_same (m : Image) (a : Nat) (v : Byte) : (m.write a v).read a = some v := by
  induction m with
  | nil => simp [Image.write, Image.read]
  | cons c rest ih =>
    obtain ⟨k, b⟩ := c
    by_cases h1 : a < k
    · simp [Image.write, Image.read, h1]
    · by_cases h2 : a = k <;> simp [Image.write, Image.read, h1, h2, ih]

/-- Below the first address of a canonical image nothing is listed. -/
theorem read_eq_none_of_lt (m : Image) (a : Nat) (h : ∀ c ∈ m, a < c.1) : m.read a = none := by
  induction m with
  | nil => rfl
  | cons c rest ih =>
    have hc : a ≠ c.1 := Nat.ne_of_lt (h c (by simp))
    rw [Image.read, if_neg hc]
    exact ih fun d hd => h d (by simp [hd])

theorem read_write_other (m : Image) {a c : Nat} (v : Byte) (h : c ≠ a) :
    (m.write a v).read c = m.read c := by
  induction m with
  | nil => simp [Image.write, Image.read, h]
  | cons d rest ih =>
    obtain ⟨k, b⟩ := d
    by_cases h1 : a < k
    · simp [Image.write, Image.read, h1, h]
    · by_cases h2 : a = k
      · subst h2; simp [Image.write, Image.read, h]
      · by_cases h3 : c = k <;> simp [Image.write, Image.read, h1, h2, h3, ih]

/-- An address of the written image is the one written or one of the old image's. -/
theorem mem_write {m : Image} {a : Nat} {v : Byte} {c : Host.Cell} (h : c ∈ m.write a v) :
    c.1 = a ∨ c ∈ m := by
  induction m with
  | nil => simp_all [Image.write]
  | cons d rest ih =>
    obtain ⟨k, b⟩ := d
    by_cases h1 : a < k
    · simp only [Image.write, h1, if_true, List.mem_cons] at h
      rcases h with rfl | h
      · exact .inl rfl
      · exact .inr (by simpa using h)
    · by_cases h2 : a = k
      · simp only [Image.write, h2, if_true, if_false, lt_irrefl, List.mem_cons] at h
        rcases h with rfl | h
        · exact .inl h2.symm
        · exact .inr (by simp [h])
      · simp only [Image.write, h1, h2, if_false, List.mem_cons] at h
        rcases h with rfl | h
        · exact .inr (by simp)
        · exact (ih h).imp id fun h => by simp [h]

theorem write_wf {m : Image} (a : Nat) (v : Byte) (h : m.wf) : (m.write a v).wf := by
  induction m with
  | nil => simp [Image.write]
  | cons d rest ih =>
    obtain ⟨k, b⟩ := d
    obtain ⟨hk, hrest⟩ := List.pairwise_cons.1 h
    by_cases h1 : a < k
    · simp only [Image.write, h1, if_true]
      refine List.pairwise_cons.2 ⟨fun c hc => ?_, h⟩
      rcases List.mem_cons.1 hc with rfl | hc
      · exact h1
      · exact h1.trans (hk c hc)
    · by_cases h2 : a = k
      · subst h2
        simp only [Image.write, lt_irrefl, if_false, if_true]
        exact List.pairwise_cons.2 ⟨hk, hrest⟩
      · simp only [Image.write, h1, h2, if_false]
        refine List.pairwise_cons.2 ⟨fun c hc => ?_, ih hrest⟩
        rcases mem_write hc with hc | hc
        · rw [hc]; exact lt_of_le_of_ne (Nat.le_of_not_lt h1) (Ne.symm h2)
        · exact hk c hc

theorem loadBytes_wf (p : Params) {m : Image} (a : Nat) (bs : List Byte) (h : m.wf) :
    (m.loadBytes p a bs).wf := by
  induction bs generalizing a with
  | nil => exact h
  | cons b rest ih => exact write_wf _ _ (ih (a + 1))

theorem withFetchWord_img_wf {s : State} (nbits w : Nat) (h : s.img.wf) :
    (s.withFetchWord nbits w).img.wf :=
  loadBytes_wf _ _ _ h

theorem reset_img_wf : State.reset.img.wf := List.Pairwise.nil

end Sys2Proof.Machine
end

