-- ==== Sys2Proof/Laws/PerInstr.lean ====
section
/-! SUPPORT. Laws proved instruction by instruction: the family `DecodeEncode`. -/

namespace Sys2Proof.Laws.DecodeEncode

/-- The opcode word of a well-formed instruction decodes to it. -/
def Statement (i : Instr) : Prop := i.wf = true → decodeWord (encodeWord i) = .ok i

theorem dsizeOf_code (size : DSize) : dsizeOf (dsizeCode size) = size := by cases size <;> rfl

theorem dsizeCode_ne {size : DSize} (h : size.encodable = true) : dsizeCode size ≠ 3 := by
  cases size <;> first | decide | cases h

/-- The Field Extractor reads back the fields of a register-form word (R70, R73). -/
theorem regWord_fields (cnt : BitVec 3) (d : BitVec 1) (size : DSize) (ir : BitVec 1) (t : BitVec 2)
    (dreg : BitVec 3) :
    extractFields (encodeRegWord cnt d size ir t dreg) =
      { raw := encodeRegWord cnt d size ir t dreg, regLo := dreg, modeLo := ir ++ t,
        size := dsizeCode size, modeHi := d ++ dsizeCode size, regHi := cnt, line := 0xE } := by
  simp only [extractFields, regLo, modeLo, sizeCode, modeHi, regHi, opcodeLine, encodeRegWord]
  congr 1
  all_goals
    generalize dsizeCode size = code
    revert cnt d code ir t dreg
    decide +kernel

/-- The Field Extractor reads back the fields of a memory-form word (R70, R74). -/
theorem memWord_fields (x : Bool) (t : BitVec 2) (d : BitVec 1) (mode reg : BitVec 3) :
    extractFields (encodeMemWord x t d mode reg) =
      { raw := encodeMemWord x t d mode reg, regLo := reg, modeLo := mode, size := 3,
        modeHi := d ++ 3#2, regHi := BitVec.ofBool x ++ t, line := 0xE } := by
  simp only [extractFields, regLo, modeLo, sizeCode, modeHi, regHi, opcodeLine, encodeMemWord]
  congr 1
  all_goals
    revert x t d mode reg
    decide +kernel

/-- The bits a register-form InstructionWord is decoded by (R73). -/
theorem modeLo_bits (ir : BitVec 1) (t : BitVec 2) :
    (ir ++ t : BitVec 3).getLsbD 2 = ir.getLsbD 0 ∧ (ir ++ t : BitVec 3).extractLsb' 0 2 = t := by
  revert ir t; decide

theorem modeHi_direction (d : BitVec 1) (z : BitVec 2) : (d ++ z : BitVec 3).extractLsb' 2 1 = d := by
  revert d z; decide

theorem regHi_bits (x : Bool) (t : BitVec 2) :
    (BitVec.ofBool x ++ t : BitVec 3).getLsbD 2 = x ∧
    (BitVec.ofBool x ++ t : BitVec 3).extractLsb' 0 2 = t := by
  revert x t; decide

theorem decode_immWord (cnt : BitVec 3) (d : BitVec 1) {size : DSize} (t : BitVec 2) (dreg : BitVec 3)
    (h : size.encodable = true) :
    decodeWord (encodeRegWord cnt d size 0 t dreg) = .ok (.immForm (lineETag t d) cnt size dreg) := by
  simp only [decodeWord, regWord_fields, decodeLineE, modeHi_direction, modeLo_bits, dsizeOf_code,
    if_neg (dsizeCode_ne h), if_true]
  rfl

theorem decode_regWord (cnt : BitVec 3) (d : BitVec 1) {size : DSize} (t : BitVec 2) (dreg : BitVec 3)
    (h : size.encodable = true) :
    decodeWord (encodeRegWord cnt d size 1 t dreg) = .ok (.regForm (lineETag t d) cnt size dreg) := by
  simp only [decodeWord, regWord_fields, decodeLineE, modeHi_direction, modeLo_bits, dsizeOf_code,
    if_neg (dsizeCode_ne h), if_true]
  rfl

theorem decode_memWord (x : Bool) (t : BitVec 2) (d : BitVec 1) (mode reg : BitVec 3) :
    decodeWord (encodeMemWord x t d mode reg) = .ok (.memForm (lineETag t d) x mode reg) := by
  simp only [decodeWord, memWord_fields, decodeLineE, modeHi_direction, regHi_bits, if_true]

theorem asrImm (cnt : BitVec 3) (size : DSize) (dreg : BitVec 3) : Statement (.asrImm cnt size dreg) :=
  decode_immWord cnt 0 0b00 dreg

theorem asrReg (creg : BitVec 3) (size : DSize) (dreg : BitVec 3) : Statement (.asrReg creg size dreg) :=
  decode_regWord creg 0 0b00 dreg

theorem asrMem (x : Bool) (mode reg : BitVec 3) : Statement (.asrMem x mode reg) :=
  fun _ => decode_memWord x 0b00 0 mode reg

theorem aslImm (cnt : BitVec 3) (size : DSize) (dreg : BitVec 3) : Statement (.aslImm cnt size dreg) :=
  decode_immWord cnt 1 0b00 dreg

theorem aslReg (creg : BitVec 3) (size : DSize) (dreg : BitVec 3) : Statement (.aslReg creg size dreg) :=
  decode_regWord creg 1 0b00 dreg

theorem aslMem (x : Bool) (mode reg : BitVec 3) : Statement (.aslMem x mode reg) :=
  fun _ => decode_memWord x 0b00 1 mode reg

theorem lsrImm (cnt : BitVec 3) (size : DSize) (dreg : BitVec 3) : Statement (.lsrImm cnt size dreg) :=
  decode_immWord cnt 0 0b01 dreg

theorem lsrReg (creg : BitVec 3) (size : DSize) (dreg : BitVec 3) : Statement (.lsrReg creg size dreg) :=
  decode_regWord creg 0 0b01 dreg

theorem lsrMem (x : Bool) (mode reg : BitVec 3) : Statement (.lsrMem x mode reg) :=
  fun _ => decode_memWord x 0b01 0 mode reg

theorem lslImm (cnt : BitVec 3) (size : DSize) (dreg : BitVec 3) : Statement (.lslImm cnt size dreg) :=
  decode_immWord cnt 1 0b01 dreg

theorem lslReg (creg : BitVec 3) (size : DSize) (dreg : BitVec 3) : Statement (.lslReg creg size dreg) :=
  decode_regWord creg 1 0b01 dreg

theorem lslMem (x : Bool) (mode reg : BitVec 3) : Statement (.lslMem x mode reg) :=
  fun _ => decode_memWord x 0b01 1 mode reg

theorem roxrImm (cnt : BitVec 3) (size : DSize) (dreg : BitVec 3) : Statement (.roxrImm cnt size dreg) :=
  decode_immWord cnt 0 0b10 dreg

theorem roxrReg (creg : BitVec 3) (size : DSize) (dreg : BitVec 3) : Statement (.roxrReg creg size dreg) :=
  decode_regWord creg 0 0b10 dreg

theorem roxrMem (x : Bool) (mode reg : BitVec 3) : Statement (.roxrMem x mode reg) :=
  fun _ => decode_memWord x 0b10 0 mode reg

theorem roxlImm (cnt : BitVec 3) (size : DSize) (dreg : BitVec 3) : Statement (.roxlImm cnt size dreg) :=
  decode_immWord cnt 1 0b10 dreg

theorem roxlReg (creg : BitVec 3) (size : DSize) (dreg : BitVec 3) : Statement (.roxlReg creg size dreg) :=
  decode_regWord creg 1 0b10 dreg

theorem roxlMem (x : Bool) (mode reg : BitVec 3) : Statement (.roxlMem x mode reg) :=
  fun _ => decode_memWord x 0b10 1 mode reg

theorem rorImm (cnt : BitVec 3) (size : DSize) (dreg : BitVec 3) : Statement (.rorImm cnt size dreg) :=
  decode_immWord cnt 0 0b11 dreg

theorem rorReg (creg : BitVec 3) (size : DSize) (dreg : BitVec 3) : Statement (.rorReg creg size dreg) :=
  decode_regWord creg 0 0b11 dreg

theorem rorMem (x : Bool) (mode reg : BitVec 3) : Statement (.rorMem x mode reg) :=
  fun _ => decode_memWord x 0b11 0 mode reg

theorem rolImm (cnt : BitVec 3) (size : DSize) (dreg : BitVec 3) : Statement (.rolImm cnt size dreg) :=
  decode_immWord cnt 1 0b11 dreg

theorem rolReg (creg : BitVec 3) (size : DSize) (dreg : BitVec 3) : Statement (.rolReg creg size dreg) :=
  decode_regWord creg 1 0b11 dreg

theorem rolMem (x : Bool) (mode reg : BitVec 3) : Statement (.rolMem x mode reg) :=
  fun _ => decode_memWord x 0b11 1 mode reg

end Sys2Proof.Laws.DecodeEncode
end

