-- ==== Sys2Proof/Laws/Words.lean ====
section
/-! SUPPORT. Opcode words: their bytes, the parts they are made of, and the encodings of each form. -/

namespace Sys2Proof

/-- The two bytes of a word, put together again. -/
theorem wordBytes_append (w : Word) : (w.extractLsb' 8 8 ++ w.extractLsb' 0 8 : BitVec (8 + 8)) = w := by
  apply BitVec.eq_of_getLsbD_eq
  intro i hi
  rw [BitVec.getLsbD_append]
  by_cases h : i < 8
  · simp [h]
  · rw [if_neg h, BitVec.getLsbD_extractLsb', show 8 + (i - 8) = i by omega, decide_eq_true (by omega),
      Bool.true_and]

/-! ### The tags -/

theorem tagCode_table (idx : BitVec 3) : tagCode (tagTable idx) = idx := by revert idx; decide

theorem tagCode_lineETag (t : BitVec 2) (d : BitVec 1) : tagCode (lineETag t d) = t ++ d :=
  tagCode_table _

theorem bitVec2_cases (t : BitVec 2) : t = 0 ∨ t = 1 ∨ t = 2 ∨ t = 3 := by revert t; decide

theorem bitVec1_cases (d : BitVec 1) : d = 0 ∨ d = 1 := by revert d; decide

/-! ### The three forms of an operation -/

section
variable (t : Tag) (c : BitVec 3) (x : Bool) (z : DSize) (m r : BitVec 3)

@[simp] theorem immForm_wf : (Instr.immForm t c z r).wf = z.encodable := by cases t <;> rfl
@[simp] theorem regForm_wf : (Instr.regForm t c z r).wf = z.encodable := by cases t <;> rfl
@[simp] theorem memForm_wf : (Instr.memForm t x m r).wf = true := by cases t <;> rfl
@[simp] theorem immForm_form : (Instr.immForm t c z r).form = .regImm := by cases t <;> rfl
@[simp] theorem regForm_form : (Instr.regForm t c z r).form = .regReg := by cases t <;> rfl
@[simp] theorem memForm_form : (Instr.memForm t x m r).form = .mem := by cases t <;> rfl
@[simp] theorem immForm_tag : (Instr.immForm t c z r).tag = t := by cases t <;> rfl
@[simp] theorem regForm_tag : (Instr.regForm t c z r).tag = t := by cases t <;> rfl
@[simp] theorem memForm_tag : (Instr.memForm t x m r).tag = t := by cases t <;> rfl

end

theorem encodeWord_immForm (t : BitVec 2) (d : BitVec 1) (c : BitVec 3) (z : DSize) (r : BitVec 3) :
    encodeWord (.immForm (lineETag t d) c z r) = encodeRegWord c d z 0 t r := by
  rcases bitVec2_cases t with rfl | rfl | rfl | rfl <;> rcases bitVec1_cases d with rfl | rfl <;> rfl

theorem encodeWord_regForm (t : BitVec 2) (d : BitVec 1) (c : BitVec 3) (z : DSize) (r : BitVec 3) :
    encodeWord (.regForm (lineETag t d) c z r) = encodeRegWord c d z 1 t r := by
  rcases bitVec2_cases t with rfl | rfl | rfl | rfl <;> rcases bitVec1_cases d with rfl | rfl <;> rfl

theorem encodeWord_memForm (t : BitVec 2) (d : BitVec 1) (x : Bool) (m r : BitVec 3) :
    encodeWord (.memForm (lineETag t d) x m r) = encodeMemWord x t d m r := by
  rcases bitVec2_cases t with rfl | rfl | rfl | rfl <;> rcases bitVec1_cases d with rfl | rfl <;> rfl

/-! ### What decodes -/

/-- A word decodes exactly when its line is 0xE (R78, R211). -/
theorem decodeWord_cases (w : Word) :
    (opcodeLine w = 0xE ∧ decodeWord w = .ok (decodeLineE (extractFields w))) ∨
    (opcodeLine w ≠ 0xE ∧ decodeWord w = .error (.unsupportedOpcodeLine (opcodeLine w))) := by
  by_cases h : opcodeLine w = 0xE
  · exact .inl ⟨h, if_pos h⟩
  · exact .inr ⟨h, if_neg h⟩

/-- Whatever decodes is well formed. -/
theorem decodeWord_wf {w : Word} {i : Instr} (h : decodeWord w = .ok i) : i.wf = true := by
  rcases decodeWord_cases w with ⟨-, e⟩ | ⟨-, e⟩ <;> rw [e] at h <;> cases h
  have hz : ∀ z : BitVec 2, z ≠ 3 → (dsizeOf z).encodable = true := by decide
  simp only [decodeLineE]
  by_cases hs : (extractFields w).size = 3
  · simp [hs]
  · rw [if_neg hs]
    split <;> simp [hz _ hs]

/-! ### The parts of a word -/

/-- A register-form layout made of a word's own fields is the word, when its line is 0xE (R73). -/
theorem word_regParts (w : Word) (h : opcodeLine w = 0xE) :
    encodeRegWord (regHi w) (w.extractLsb' 8 1) (dsizeOf (sizeCode w)) (w.extractLsb' 5 1)
      (w.extractLsb' 3 2) (regLo w) = w := by
  have hz : dsizeCode (dsizeOf (sizeCode w)) = sizeCode w := by
    generalize sizeCode w = z; revert z; decide
  rw [encodeRegWord, hz, show (0xE#4 : BitVec 4) = opcodeLine w from h.symm]
  apply BitVec.eq_of_getLsbD_eq
  intro i hi
  simp only [BitVec.getLsbD_append, opcodeLine, regHi, sizeCode, regLo, BitVec.getLsbD_extractLsb']
  interval_cases i <;> simp

/-- A memory-form layout made of a word's own fields is the word, when its line is 0xE and its size code 3 (R74). -/
theorem word_memParts (w : Word) (h : opcodeLine w = 0xE) (hs : sizeCode w = 3) :
    encodeMemWord (w.getLsbD 11) (w.extractLsb' 9 2) (w.extractLsb' 8 1) (modeLo w) (regLo w) = w := by
  rw [encodeMemWord, show (3#2 : BitVec 2) = sizeCode w from hs.symm,
    show (0xE#4 : BitVec 4) = opcodeLine w from h.symm]
  apply BitVec.eq_of_getLsbD_eq
  intro i hi
  simp only [BitVec.getLsbD_append, opcodeLine, modeLo, sizeCode, regLo, BitVec.getLsbD_extractLsb',
    BitVec.getLsbD_ofBool]
  interval_cases i <;> simp

end Sys2Proof
end

