-- ==== Sys2Proof/Laws/Step.lean ====
section
/-! SUPPORT. What an attempt and a step can do: the inversion lemmas that the claims about runs cite. -/

namespace Sys2Proof.Machine

/-! ### Outcomes -/

@[simp] theorem andThen_next (s : State) (f : State → State) : andThen (.next s) f = .next (f s) := rfl
@[simp] theorem andThen_fault (r : Fault) (f : State → State) : andThen (.fault r) f = .fault r := rfl
@[simp] theorem andThen_refused (r : Refusal) (f : State → State) : andThen (.refused r) f = .refused r := rfl

theorem andThen_eq_next {o : Host.Outcome State Fault Refusal} {f : State → State} {t : State}
    (h : andThen o f = .next t) : ∃ u, o = .next u ∧ t = f u := by
  cases o with
  | next u => cases h; exact ⟨u, rfl, rfl⟩
  | fault r => cases h
  | refused r => cases h

/-! ### Instructions -/

/-- Everything an instruction can answer. A register form gives the record of its two operands; a memory form refuses its
EA, faults in its extension fetch, or gives the record of its one operand. -/
theorem exec_cases (i : Instr) (s : State) :
    (∃ c z r, (i = .immForm i.tag c z r ∧ exec i s = lineEReg i.tag (immCountOperand c z) z r s) ∨
      (i = .regForm i.tag c z r ∧ exec i s = lineEReg i.tag (dataRegOperand c z) z r s)) ∨
    (∃ x m r, i = .memForm i.tag x m r ∧ exec i s = lineEMem i.tag m r s) := by
  rcases instr_forms i with ⟨c, z, r, h⟩ | ⟨c, z, r, h⟩ | ⟨x, m, r, h⟩
  · exact .inl ⟨c, z, r, .inl ⟨h, by rw [h, exec_immForm]; rw [← h]⟩⟩
  · exact .inl ⟨c, z, r, .inr ⟨h, by rw [h, exec_regForm]; rw [← h]⟩⟩
  · exact .inr ⟨x, m, r, h, by rw [h, exec_memForm]; rw [← h]⟩

/-- An instruction never refuses. -/
theorem exec_not_refused (i : Instr) (s : State) (q : Refusal) : exec i s ≠ .refused q := by
  rcases exec_cases i s with ⟨c, z, r, ⟨-, e⟩ | ⟨-, e⟩⟩ | ⟨x, m, r, -, e⟩ <;> rw [e]
  · nofun
  · nofun
  · rcases lineEMem_cases i.tag m r s with ⟨-, e⟩ | ⟨-, e⟩ | ⟨-, op, n, -, -, -, -, e⟩ <;> rw [e] <;> nofun

/-- What a well-formed instruction answers after the opcode fetch: the refused EA, or a legal record whose length is 2 and
the extension fetched (R161, R166, R167). -/
theorem exec_next {i : Instr} {s u : State} (hw : i.wf = true) (hc : s.cnt = 2) (h : exec i s = .next u) :
    u = fail .invalidAddressingMode s ∨
    ∃ r n, r.legal ∧ r.nops ≠ 0 ∧ r.len = 2 + n ∧ (n = 0 ∨ n = 2 ∨ n = 4) ∧ u = respond r (s.advance n) := by
  have count : ∀ c : BitVec 3, 1 ≤ (immCount c).toNat ∧ (immCount c).toNat ≤ 8 := by decide
  rcases exec_cases i s with ⟨c, z, r, ⟨hi, e⟩ | ⟨hi, e⟩⟩ | ⟨x, m, r, hi, e⟩ <;> rw [e] at h
  · rw [hi, immForm_wf] at hw
    cases h
    refine .inr ⟨_, 0, .inr (.inl ⟨rfl, ?_, rfl, rfl, rfl, hw, rfl, hc⟩), (by decide : (2#2 : BitVec 2) ≠ 0), hc, by simp, rfl⟩
    exact decide_eq_true (count c)
  · rw [hi, regForm_wf] at hw
    cases h
    exact .inr ⟨_, 0, .inr (.inl ⟨rfl, rfl, rfl, rfl, rfl, hw, rfl, hc⟩), (by decide : (2#2 : BitVec 2) ≠ 0), hc, by simp, rfl⟩
  · rcases lineEMem_cases i.tag m r s with ⟨-, e⟩ | ⟨-, e⟩ | ⟨hp, op, n, he, hd, hu, hn, e⟩ <;> rw [e] at h <;>
      cases h
    · exact .inl rfl
    · obtain ⟨k, hk, hkind, hbase⟩ := permitted_operand hp he
      have hnk : n = k := by simpa using congrArg State.cnt hk
      subst hnk
      have hop : (EaResult.success op).op = op := rfl
      rw [hop] at hkind hbase
      refine .inr ⟨_, n, .inr (.inr ⟨rfl, ?_, rfl, rfl, ?_⟩), (by decide : (1#2 : BitVec 2) ≠ 0), by rw [hc], hn, rfl⟩
      · simp [Operand.isMemoryOperand, hkind, hbase, hd, hu]
      · simp [hkind, hc, Nat.add_comm]

/-! ### The Dispatch -/

/-- Everything the Dispatch can do, in the order of its checks (R210, R224). -/
theorem dispatch_cases (addr : Nat) (s : State) :
    (addr % 2 = 1 ∧ dispatch addr s = .next (fail .invalidAlignment s)) ∨
    (addr % 2 = 0 ∧ (s.byteAt s.fetchAddr = none ∨ s.byteAt (s.fetchAddr + 1) = none) ∧
      dispatch addr s = .fault (.fetchOutOfImage s.fetchAddr)) ∨
    (addr % 2 = 0 ∧ ∃ b0 b1, s.byteAt s.fetchAddr = some b0 ∧ s.byteAt (s.fetchAddr + 1) = some b1 ∧
      ((∃ l, decodeWord (b0 ++ b1) = .error l ∧
          dispatch addr s = .next (fail .unsupportedOpcodeLine (s.advance 2))) ∨
        (∃ i, decodeWord (b0 ++ b1) = .ok i ∧ dispatch addr s = exec i (s.advance 2)))) := by
  unfold dispatch
  by_cases ha : addr % 2 = 1
  · exact .inl ⟨ha, by rw [if_pos ha]⟩
  · have he : addr % 2 = 0 := by omega
    rw [if_neg ha]
    rcases fetchWord_cases s with ⟨b0, b1, h0, h1, e⟩ | ⟨hm, e⟩
    · refine .inr (.inr ⟨he, b0, b1, h0, h1, ?_⟩)
      rw [e]
      cases hd : decodeWord (b0 ++ b1) with
      | error l => exact .inl ⟨l, rfl, by simp only [hd]⟩
      | ok i => exact .inr ⟨i, rfl, by simp only [hd]⟩
    · exact .inr (.inl ⟨he, hm, by rw [e]⟩)

/-- Everything a Dispatch attempt that answers can have done: the three failures, each with its cursor (R223), or a success
with a legal record (R214). -/
theorem decodeAttempt_next {addr : Nat} {s u : State} (h : decodeAttempt addr s = .next u) :
    (addr % 2 = 1 ∧ u = fail .invalidAlignment (startDecode addr s)) ∨
    (addr % 2 = 0 ∧ ∃ e, (e = .unsupportedOpcodeLine ∨ e = .invalidAddressingMode) ∧
      u = fail e ((startDecode addr s).advance 2)) ∨
    (addr % 2 = 0 ∧ ∃ r n, r.legal ∧ r.nops ≠ 0 ∧ r.len = 2 + n ∧ (n = 0 ∨ n = 2 ∨ n = 4) ∧
      u = respond r ((startDecode addr s).advance (2 + n))) := by
  rcases dispatch_cases addr (startDecode addr s) with
    ⟨ho, e⟩ | ⟨-, -, e⟩ | ⟨he, b0, b1, -, -, ⟨l, -, e⟩ | ⟨i, hd, e⟩⟩ <;>
    rw [decodeAttempt, e] at h
  · cases h; exact .inl ⟨ho, rfl⟩
  · cases h
  · cases h; exact .inr (.inl ⟨he, _, .inl rfl, rfl⟩)
  · rcases exec_next (decodeWord_wf hd) (by simp) h with rfl | ⟨r, n, hl, hz, hlen, hn, rfl⟩
    · exact .inr (.inl ⟨he, _, .inr rfl, rfl⟩)
    · refine .inr (.inr ⟨he, r, n, hl, hz, hlen, hn, ?_⟩)
      simp [State.advance]

/-! ### The step -/

/-- Everything a step that answers a next state can have done. -/
theorem step_cases {s t : State} (h : step s = .next t) :
    (t = s ∧ (s.request = .idle ∨ ∃ addr stop, s.request = .scan addr stop ∧ ¬ addr < stop)) ∨
    (∃ ip cnt, s.request = .place ip cnt ∧ s.busy = false ∧ t = callerGoesOn (placeCursor ip cnt s)) ∨
    (∃ addr u, s.asksDecode addr ∧ s.busy = false ∧ decodeAttempt addr s = .next u ∧ t = callerGoesOn u) ∨
    (∃ m r d u, s.request = .ea m r d ∧ s.busy = false ∧ eaAttempt m r d s = .next u ∧
      t = callerGoesOn u) := by
  have hb : ∀ {o : Host.Outcome State Fault Refusal} {P : Prop},
      (if s.busy then .refused .attemptInProgress else o) = .next t → (s.busy = false → o = .next t → P) → P := by
    intro o P ho k
    cases hbusy : s.busy with
    | true => rw [hbusy] at ho; cases ho
    | false => rw [hbusy] at ho; exact k hbusy ho
  unfold step serve at h
  cases hq : s.request with
  | idle => rw [hq] at h; cases h; exact .inl ⟨rfl, .inl rfl⟩
  | place ip cnt =>
    rw [hq] at h
    refine hb h fun hbusy ho => ?_
    cases ho
    exact .inr (.inl ⟨ip, cnt, rfl, hbusy, rfl⟩)
  | decodeAt addr =>
    rw [hq] at h
    refine hb h fun hbusy ho => ?_
    obtain ⟨u, hu, rfl⟩ := andThen_eq_next ho
    exact .inr (.inr (.inl ⟨addr, u, .inl hq, hbusy, hu, rfl⟩))
  | scan addr stop =>
    simp only [hq] at h
    by_cases hlt : addr < stop
    · rw [if_pos hlt] at h
      refine hb h fun hbusy ho => ?_
      obtain ⟨u, hu, rfl⟩ := andThen_eq_next ho
      exact .inr (.inr (.inl ⟨addr, u, .inr ⟨stop, hq, hlt⟩, hbusy, hu, rfl⟩))
    · rw [if_neg hlt] at h
      cases h
      exact .inl ⟨rfl, .inr ⟨addr, stop, rfl, hlt⟩⟩
  | ea m r d =>
    rw [hq] at h
    refine hb h fun hbusy ho => ?_
    obtain ⟨u, hu, rfl⟩ := andThen_eq_next ho
    exact .inr (.inr (.inr ⟨m, r, d, u, rfl, hbusy, hu, rfl⟩))

/-- A step on a request for `Decode(addr)` is the attempt, and then the caller goes on. -/
theorem step_asksDecode {s : State} {addr : Nat} (h : s.asksDecode addr) (hb : s.busy = false) :
    step s = andThen (decodeAttempt addr s) callerGoesOn := by
  rcases h with hq | ⟨stop, hq, hlt⟩
  · simp [step, serve, hq, hb]
  · simp [step, serve, hq, hb, hlt]

/-- A step on a request for a direct EA Decoder call is that call, and then the caller goes on. -/
theorem step_asksEa {s : State} {m : BitVec 4} {r : BitVec 3} {d : DSize} (h : s.request = .ea m r d)
    (hb : s.busy = false) : step s = andThen (eaAttempt m r d s) callerGoesOn := by
  simp [step, serve, h, hb]

end Sys2Proof.Machine
end

