-- ==== Sys2Proof/Tests/Slice0.lean ====
section
/-! SUPPORT. Tests. Expected results are the spec's: the examples of its rules, the vectors V<n> and the programs P<n> of
95_test_vectors.md, and words written out bit by bit from 30_encoding.md. Then one witness for every statement with
hypotheses: a concrete state and operands that meet them together. -/

namespace Sys2Proof.Tests

open Sys2Proof.Machine

/-! ### Helpers -/

/-- An image that holds these bytes from an address on. -/
def img (a : Nat) : List Byte → Image
  | [] => []
  | b :: rest => (a, b) :: img (a + 1) rest

/-- After reset, with an image, and `Decode(addr)` asked. -/
def ask (addr : Nat) (m : Image) : State := { State.reset with img := m, request := .decodeAt addr }

/-- After reset, with an image, and the first call of a scan asked. -/
def scanning (addr stop : Nat) (m : Image) : State := { State.reset with img := m, request := .scan addr stop }

/-- The start state of the vectors of Part 3: CUR.ip 0x1000, CUR.cnt 2, these bytes from 0x1002. -/
def eaAt (bs : List Byte) : State := { State.reset with ip := 0x1000, cnt := 2, img := img 0x1002 bs }

/-- A cursor at the top of the address space, with four bytes that wrap (V93). -/
def atTop : State :=
  { State.reset with ip := 0xFFFFFFFC, cnt := 2,
                     img := [(0, 0x56), (1, 0x78), (0xFFFFFFFE, 0x12), (0xFFFFFFFF, 0x34)] }

/-- What the caller reads after a Dispatch attempt: the response, and the cursor. -/
structure Answer where
  record : InstructionRecord
  len    : Nat
  err    : ErrClass
  ip     : Nat
  cnt    : Nat
  deriving DecidableEq, Repr

/-- What a step answers. -/
def answer : Host.Outcome State Fault Refusal → Option Answer
  | .next s => some ⟨s.record, s.len, s.err, s.ip, s.cnt⟩
  | _ => none

/-- The request after a step. -/
def asked : Host.Outcome State Fault Refusal → Option Request
  | .next s => some s.request
  | _ => none

/-- The fault of a step. -/
def faultOf : Host.Outcome State Fault Refusal → Option Fault
  | .fault f => some f
  | _ => none

/-- What the caller reads after an EA Decoder call: the response, and the new CUR.cnt. -/
structure EaAnswer where
  res : EaResult
  cnt : Nat
  deriving DecidableEq, Repr

/-- What an EA Decoder call answers. -/
def eaAnswer : Except Fault (EaResult × State) → Option EaAnswer
  | .ok (res, s) => some ⟨res, s.cnt⟩
  | .error _ => none

/-- An operand that is a kind, a size, a register and a value. -/
def op (k : OperandKind) (d : DSize) (r : BitVec 3) (v : Long) : Operand := Expected.operand k d r v

/-- The answer to a register form at 0x2000. -/
def regAnswer (t : Tag) (src dst : Operand) : Option Answer :=
  some ⟨{ tag := t, nops := 2, op0 := src, op1 := dst, op2 := .zero, len := 2 }, 2, .none, 0x2000, 2⟩

/-- The answer to a memory form at 0x2000. -/
def memAnswer (t : Tag) (o : Operand) (len : Nat) : Option Answer :=
  some ⟨{ tag := t, nops := 1, op0 := o, op1 := .zero, op2 := .zero, len := len }, len, .none, 0x2000, len⟩

/-- A failure at 0x2000 after the opcode fetch. -/
def failAnswer (e : ErrClass) : Option Answer :=
  some ⟨.zero, 0, e, 0x2000, 2⟩

/-! ### Decoding: words written out from R73, R74 and R75, one per constructor (their values are the examples of R170 to R193) -/

theorem test_decode_asr :
    decodeWord (0b1110#4 ++ 0b111#3 ++ 0b0#1 ++ 0b10#2 ++ 0b0#1 ++ 0b00#2 ++ 0b111#3) = .ok (.asrImm 7 .long 7) ∧
    decodeWord (0b1110#4 ++ 0b010#3 ++ 0b0#1 ++ 0b00#2 ++ 0b1#1 ++ 0b00#2 ++ 0b101#3) = .ok (.asrReg 2 .byte 5) ∧
    decodeWord (0b1110#4 ++ 0b0#1 ++ 0b00#2 ++ 0b0#1 ++ 0b11#2 ++ 0b010#3 ++ 0b000#3) = .ok (.asrMem false 2 0) := by
  decide

theorem test_decode_asl :
    decodeWord (0b1110#4 ++ 0b001#3 ++ 0b1#1 ++ 0b00#2 ++ 0b0#1 ++ 0b00#2 ++ 0b001#3) = .ok (.aslImm 1 .byte 1) ∧
    decodeWord (0b1110#4 ++ 0b011#3 ++ 0b1#1 ++ 0b01#2 ++ 0b1#1 ++ 0b00#2 ++ 0b000#3) = .ok (.aslReg 3 .word 0) ∧
    decodeWord (0b1110#4 ++ 0b0#1 ++ 0b00#2 ++ 0b1#1 ++ 0b11#2 ++ 0b111#3 ++ 0b000#3) = .ok (.aslMem false 7 0) := by
  decide

theorem test_decode_lsr :
    decodeWord (0b1110#4 ++ 0b000#3 ++ 0b0#1 ++ 0b01#2 ++ 0b0#1 ++ 0b01#2 ++ 0b000#3) = .ok (.lsrImm 0 .word 0) ∧
    decodeWord (0b1110#4 ++ 0b101#3 ++ 0b0#1 ++ 0b10#2 ++ 0b1#1 ++ 0b01#2 ++ 0b110#3) = .ok (.lsrReg 5 .long 6) ∧
    decodeWord (0b1110#4 ++ 0b0#1 ++ 0b01#2 ++ 0b0#1 ++ 0b11#2 ++ 0b011#3 ++ 0b100#3) = .ok (.lsrMem false 3 4) := by
  decide

theorem test_decode_lsl :
    decodeWord (0b1110#4 ++ 0b010#3 ++ 0b1#1 ++ 0b10#2 ++ 0b0#1 ++ 0b01#2 ++ 0b011#3) = .ok (.lslImm 2 .long 3) ∧
    decodeWord (0b1110#4 ++ 0b001#3 ++ 0b1#1 ++ 0b10#2 ++ 0b1#1 ++ 0b01#2 ++ 0b000#3) = .ok (.lslReg 1 .long 0) ∧
    decodeWord (0b1110#4 ++ 0b0#1 ++ 0b01#2 ++ 0b1#1 ++ 0b11#2 ++ 0b100#3 ++ 0b111#3) = .ok (.lslMem false 4 7) := by
  decide

theorem test_decode_roxr :
    decodeWord (0b1110#4 ++ 0b011#3 ++ 0b0#1 ++ 0b00#2 ++ 0b0#1 ++ 0b10#2 ++ 0b100#3) = .ok (.roxrImm 3 .byte 4) ∧
    decodeWord (0b1110#4 ++ 0b110#3 ++ 0b0#1 ++ 0b01#2 ++ 0b1#1 ++ 0b10#2 ++ 0b001#3) = .ok (.roxrReg 6 .word 1) ∧
    decodeWord (0b1110#4 ++ 0b0#1 ++ 0b10#2 ++ 0b0#1 ++ 0b11#2 ++ 0b101#3 ++ 0b010#3) = .ok (.roxrMem false 5 2) := by
  decide

theorem test_decode_roxl :
    decodeWord (0b1110#4 ++ 0b100#3 ++ 0b1#1 ++ 0b01#2 ++ 0b0#1 ++ 0b10#2 ++ 0b010#3) = .ok (.roxlImm 4 .word 2) ∧
    decodeWord (0b1110#4 ++ 0b100#3 ++ 0b1#1 ++ 0b10#2 ++ 0b1#1 ++ 0b10#2 ++ 0b011#3) = .ok (.roxlReg 4 .long 3) ∧
    decodeWord (0b1110#4 ++ 0b0#1 ++ 0b10#2 ++ 0b1#1 ++ 0b11#2 ++ 0b110#3 ++ 0b001#3) = .ok (.roxlMem false 6 1) := by
  decide

theorem test_decode_ror :
    decodeWord (0b1110#4 ++ 0b000#3 ++ 0b0#1 ++ 0b01#2 ++ 0b0#1 ++ 0b11#2 ++ 0b000#3) = .ok (.rorImm 0 .word 0) ∧
    decodeWord (0b1110#4 ++ 0b111#3 ++ 0b0#1 ++ 0b00#2 ++ 0b1#1 ++ 0b11#2 ++ 0b111#3) = .ok (.rorReg 7 .byte 7) ∧
    decodeWord (0b1110#4 ++ 0b0#1 ++ 0b11#2 ++ 0b0#1 ++ 0b11#2 ++ 0b111#3 ++ 0b001#3) = .ok (.rorMem false 7 1) := by
  decide

theorem test_decode_rol :
    decodeWord (0b1110#4 ++ 0b010#3 ++ 0b1#1 ++ 0b00#2 ++ 0b0#1 ++ 0b11#2 ++ 0b010#3) = .ok (.rolImm 2 .byte 2) ∧
    decodeWord (0b1110#4 ++ 0b000#3 ++ 0b1#1 ++ 0b01#2 ++ 0b1#1 ++ 0b11#2 ++ 0b100#3) = .ok (.rolReg 0 .word 4) ∧
    decodeWord (0b1110#4 ++ 0b0#1 ++ 0b11#2 ++ 0b1#1 ++ 0b11#2 ++ 0b010#3 ++ 0b111#3) = .ok (.rolMem false 2 7) := by
  decide

/-- Other lines and short inputs are rejected by name (V163 to V168, R211). -/
theorem test_decode_rejects :
    decodeWord 0x4E75 = .error (.unsupportedOpcodeLine 4) ∧ decodeWord 0xF000 = .error (.unsupportedOpcodeLine 0xF) ∧
    decode [0xE3] = .error .truncated ∧ decodeTableWord 16 0xDFFF = none := by
  decide

/-- The host's numbering: one 16-bit word, and a word whose operand words are zero. -/
theorem test_decodeTableWord :
    decodeTableWord 16 0xE301 = some (.aslImm 1 .byte 1) ∧ decodeTableWord 16 0xE6F9 = some (.rorMem false 7 1) := by
  decide

/-! ### WellFormed: an ill-formed term for the check of each constructor that has one -/

theorem test_wf_refuses_size_other_imm :
    (Instr.asrImm 1 .other 0).wf = false ∧ (Instr.aslImm 1 .other 0).wf = false ∧
    (Instr.lsrImm 1 .other 0).wf = false ∧ (Instr.lslImm 1 .other 0).wf = false ∧
    (Instr.roxrImm 1 .other 0).wf = false ∧ (Instr.roxlImm 1 .other 0).wf = false ∧
    (Instr.rorImm 1 .other 0).wf = false ∧ (Instr.rolImm 1 .other 0).wf = false := by
  decide

theorem test_wf_refuses_size_other_reg :
    (Instr.asrReg 1 .other 0).wf = false ∧ (Instr.aslReg 1 .other 0).wf = false ∧
    (Instr.lsrReg 1 .other 0).wf = false ∧ (Instr.lslReg 1 .other 0).wf = false ∧
    (Instr.roxrReg 1 .other 0).wf = false ∧ (Instr.roxlReg 1 .other 0).wf = false ∧
    (Instr.rorReg 1 .other 0).wf = false ∧ (Instr.rolReg 1 .other 0).wf = false := by
  decide

theorem test_wf_accepts :
    (Instr.asrImm 0 .long 7).wf = true ∧ (Instr.rolReg 7 .byte 7).wf = true ∧ (Instr.lslMem true 7 7).wf = true := by
  decide

/-! ### One step: register forms (V100 to V123) -/

/-- V160. -/
theorem test_step_aslImm : answer (step (ask 0x2000 (img 0x2000 [0xE3, 0x01]))) =
    regAnswer .asl (op .immediate .byte 0 1) (op .dataRegister .byte 1 0) := by decide
/-- V116. -/
theorem test_step_asrImm : answer (step (ask 0x2000 (img 0x2000 [0xEE, 0x87]))) =
    regAnswer .asr (op .immediate .long 0 7) (op .dataRegister .long 7 0) := by decide
/-- V117: a raw count 0 is 8. -/
theorem test_step_lsrImm : answer (step (ask 0x2000 (img 0x2000 [0xE0, 0x48]))) =
    regAnswer .lsr (op .immediate .word 0 8) (op .dataRegister .word 0 0) := by decide
/-- V105. -/
theorem test_step_lslImm : answer (step (ask 0x2000 (img 0x2000 [0xE1, 0x08]))) =
    regAnswer .lsl (op .immediate .byte 0 8) (op .dataRegister .byte 0 0) := by decide
/-- The example of R182, 0xE614. -/
theorem test_step_roxrImm : answer (step (ask 0x2000 (img 0x2000 [0xE6, 0x14]))) =
    regAnswer .roxr (op .immediate .byte 0 3) (op .dataRegister .byte 4 0) := by decide
/-- V106. -/
theorem test_step_roxlImm : answer (step (ask 0x2000 (img 0x2000 [0xE1, 0x10]))) =
    regAnswer .roxl (op .immediate .byte 0 8) (op .dataRegister .byte 0 0) := by decide
/-- V118. -/
theorem test_step_rorImm : answer (step (ask 0x2000 (img 0x2000 [0xE0, 0x9F]))) =
    regAnswer .ror (op .immediate .long 0 8) (op .dataRegister .long 7 0) := by decide
/-- V107. -/
theorem test_step_rolImm : answer (step (ask 0x2000 (img 0x2000 [0xE1, 0x18]))) =
    regAnswer .rol (op .immediate .byte 0 8) (op .dataRegister .byte 0 0) := by decide
/-- The example of R171, 0xE425: the count register and the destination are not swapped. -/
theorem test_step_asrReg : answer (step (ask 0x2000 (img 0x2000 [0xE4, 0x25]))) =
    regAnswer .asr (op .dataRegister .byte 2 0) (op .dataRegister .byte 5 0) := by decide
/-- The example of R174, 0xE760. -/
theorem test_step_aslReg : answer (step (ask 0x2000 (img 0x2000 [0xE7, 0x60]))) =
    regAnswer .asl (op .dataRegister .word 3 0) (op .dataRegister .word 0 0) := by decide
/-- The example of R177, 0xEAAE. -/
theorem test_step_lsrReg : answer (step (ask 0x2000 (img 0x2000 [0xEA, 0xAE]))) =
    regAnswer .lsr (op .dataRegister .long 5 0) (op .dataRegister .long 6 0) := by decide
/-- The example of R180, 0xE3A8. -/
theorem test_step_lslReg : answer (step (ask 0x2000 (img 0x2000 [0xE3, 0xA8]))) =
    regAnswer .lsl (op .dataRegister .long 1 0) (op .dataRegister .long 0 0) := by decide
/-- The example of R183, 0xEC71. -/
theorem test_step_roxrReg : answer (step (ask 0x2000 (img 0x2000 [0xEC, 0x71]))) =
    regAnswer .roxr (op .dataRegister .word 6 0) (op .dataRegister .word 1 0) := by decide
/-- The example of R186, 0xE9B3. -/
theorem test_step_roxlReg : answer (step (ask 0x2000 (img 0x2000 [0xE9, 0xB3]))) =
    regAnswer .roxl (op .dataRegister .long 4 0) (op .dataRegister .long 3 0) := by decide
/-- V121. -/
theorem test_step_rorReg : answer (step (ask 0x2000 (img 0x2000 [0xEE, 0xBF]))) =
    regAnswer .ror (op .dataRegister .long 7 0) (op .dataRegister .long 7 0) := by decide
/-- V120. -/
theorem test_step_rolReg : answer (step (ask 0x2000 (img 0x2000 [0xE1, 0xBF]))) =
    regAnswer .rol (op .dataRegister .long 0 0) (op .dataRegister .long 7 0) := by decide

/-! ### One step: memory forms (V130 to V148) -/

/-- V130. -/
theorem test_step_asrMem : answer (step (ask 0x2000 (img 0x2000 [0xE0, 0xD0]))) =
    memAnswer .asr (op .indirect .word 0 0) 2 := by decide
/-- V131. -/
theorem test_step_aslMem : answer (step (ask 0x2000 (img 0x2000 [0xE1, 0xD8]))) =
    memAnswer .asl (op .indirectPostIncrement .word 0 0) 2 := by decide
/-- V132. -/
theorem test_step_lsrMem : answer (step (ask 0x2000 (img 0x2000 [0xE2, 0xE0]))) =
    memAnswer .lsr (op .indirectPreDecrement .word 0 0) 2 := by decide
/-- V133. -/
theorem test_step_lslMem : answer (step (ask 0x2000 (img 0x2000 [0xE3, 0xE8, 0x7F, 0xFF]))) =
    memAnswer .lsl (op .indirectDisplacement .word 0 0x7FFF) 4 := by decide
/-- V134. -/
theorem test_step_roxrMem : answer (step (ask 0x2000 (img 0x2000 [0xE4, 0xF0, 0x98, 0x02]))) =
    memAnswer .roxr { op .indirectIndexed .word 0 2 with xreg := 9, xlong := true } 4 := by decide
/-- V135. -/
theorem test_step_roxlMem : answer (step (ask 0x2000 (img 0x2000 [0xE5, 0xF0, 0x00, 0x00]))) =
    memAnswer .roxl { op .indirectIndexed .word 0 0 with nobase := true } 4 := by decide
/-- V136. -/
theorem test_step_rorMem : answer (step (ask 0x2000 (img 0x2000 [0xE6, 0xF8, 0xFF, 0xFE]))) =
    memAnswer .ror (op .absoluteShort .word 0 0xFFFFFFFE) 4 := by decide
/-- V137. -/
theorem test_step_rolMem : answer (step (ask 0x2000 (img 0x2000 [0xE7, 0xF9, 0x00, 0x01, 0x00, 0x00]))) =
    memAnswer .rol (op .absoluteLong .word 0 0x10000) 6 := by decide
/-- V138: bit 11 is not examined. -/
theorem test_step_rorMem_bit11 : answer (step (ask 0x2000 (img 0x2000 [0xEE, 0xD0]))) =
    memAnswer .ror (op .indirect .word 0 0) 2 := by decide
/-- V141, V142, V143, V145, V148, V173: refused EAs, with and without an extension in the image. -/
theorem test_step_mem_refused :
    answer (step (ask 0x2000 (img 0x2000 [0xE0, 0xC0]))) = failAnswer .invalidAddressingMode ∧
    answer (step (ask 0x2000 (img 0x2000 [0xE1, 0xCF]))) = failAnswer .invalidAddressingMode ∧
    answer (step (ask 0x2000 (img 0x2000 [0xE2, 0xFA, 0x00, 0x10]))) = failAnswer .invalidAddressingMode ∧
    answer (step (ask 0x2000 (img 0x2000 [0xE4, 0xFC, 0x00, 0x01]))) = failAnswer .invalidAddressingMode ∧
    answer (step (ask 0x2000 (img 0x2000 [0xE7, 0xFF]))) = failAnswer .invalidAddressingMode ∧
    answer (step (ask 0x2000 (img 0x2000 [0xE2, 0xFA]))) = failAnswer .invalidAddressingMode := by decide

/-! ### One step: the Dispatch, faults, the scan (V161 to V174, P1 to P3) -/

/-- V161, V162. -/
theorem test_step_odd :
    answer (step (ask 0x2001 (img 0x2000 [0xE3, 0x01, 0xE3, 0x01]))) =
      some ⟨.zero, 0, .invalidAlignment, 0x2001, 0⟩ ∧
    answer (step (ask 0x2001 [])) = some ⟨.zero, 0, .invalidAlignment, 0x2001, 0⟩ := by decide
/-- V163, V165, V166, V167. -/
theorem test_step_other_lines :
    answer (step (ask 0x2000 (img 0x2000 [0x4E, 0x75]))) = failAnswer .unsupportedOpcodeLine ∧
    answer (step (ask 0x2000 (img 0x2000 [0xA0, 0x00]))) = failAnswer .unsupportedOpcodeLine ∧
    answer (step (ask 0x2000 (img 0x2000 [0xF0, 0x00]))) = failAnswer .unsupportedOpcodeLine ∧
    answer (step (ask 0x2000 (img 0x2000 [0xDF, 0xFF]))) = failAnswer .unsupportedOpcodeLine := by decide
/-- V169, V170, V171. -/
theorem test_step_faults :
    faultOf (step (ask 0x2000 [])) = some (.fetchOutOfImage 0x2000) ∧
    faultOf (step (ask 0x2000 (img 0x2000 [0xE1, 0xF8]))) = some (.fetchOutOfImage 0x2002) ∧
    faultOf (step (ask 0x2000 (img 0x2000 [0xE7, 0xF9, 0x00, 0x01]))) = some (.fetchOutOfImage 0x2002) := by decide
/-- V174: the scan goes on at address 0. -/
theorem test_scan_wraps :
    asked (step (scanning 0xFFFFFFFE 0x100000000 (img 0xFFFFFFFE [0xE3, 0x01]))) = some (.scan 0 0x100000000) := by
  decide
/-- P1, attempt 2, and P2, attempt 0: the next address. -/
theorem test_scan_next :
    asked (step (scanning 0x1006 0x100E (img 0x1006 [0xE6, 0xF9, 0x00, 0xFF, 0x12, 0x34]))) =
      some (.scan 0x100C 0x100E) ∧
    asked (step (scanning 0x3000 0x300A (img 0x3000 [0xE0, 0xC0]))) = some (.scan 0x3001 0x300A) := by decide

/-! ### The EA Decoder (V50 to V93) -/

/-- V55, V58, V59, V60. -/
theorem test_ea_disp_and_indexed :
    eaAnswer (eaDecode 5 2 .word (eaAt [0xFF, 0xFE])) =
      some ⟨.success (op .indirectDisplacement .word 2 0xFFFFFFFE), 4⟩ ∧
    eaAnswer (eaDecode 6 1 .word (eaAt [0xA8, 0xF0])) =
      some ⟨.success { op .indirectIndexed .word 1 0xFFFFFFF0 with xreg := 10, xlong := true }, 4⟩ ∧
    eaAnswer (eaDecode 6 3 .word (eaAt [0x30, 0x00])) =
      some ⟨.success { op .indirectIndexed .word 3 0 with xreg := 3, nobase := true }, 4⟩ ∧
    eaAnswer (eaDecode 6 3 .word (eaAt [0x07, 0x80])) =
      some ⟨.success (op .indirectIndexed .word 3 0xFFFFFF80), 4⟩ := by decide

/-- V62, V63, and V65 with PCIDX_RESOLVE = ALWAYS; V70, V71. -/
theorem test_ea_pc_modes :
    eaAnswer (eaDecode 7 3 .word (eaAt [0x10, 0x00])) =
      some ⟨.success { op .indirectIndexed .word 0 0x1004 with xreg := 1, basePc := true, nobase := true }, 4⟩ ∧
    eaAnswer (eaDecode 7 3 .word (eaAt [0x10, 0x10])) =
      some ⟨.success { op .indirectIndexed .word 0 0x10 with xreg := 1, basePc := true }, 4⟩ ∧
    eaAnswer (eaDecode 7 3 .word
        { eaAt [0x10, 0xF0] with params := { Params.default with pcidxResolve := .always } }) =
      some ⟨.success { op .indirectIndexed .word 0 0xFF4 with xreg := 1, basePc := true }, 4⟩ ∧
    eaAnswer (eaDecode 7 2 .word (eaAt [0x00, 0x10])) =
      some ⟨.success (op .pcDisplacement .word 0 0x1014), 4⟩ ∧
    eaAnswer (eaDecode 7 2 .word (eaAt [0xFF, 0xFE])) =
      some ⟨.success (op .pcDisplacement .word 0 0x1002), 4⟩ := by decide

/-- V90, V91, V92: targets that wrap. -/
theorem test_ea_pc_wraps :
    eaAnswer (eaDecode 7 2 .word { eaAt [] with ip := 0, img := img 2 [0x80, 0x00] }) =
      some ⟨.success (op .pcDisplacement .word 0 0xFFFF8004), 4⟩ ∧
    eaAnswer (eaDecode 7 2 .word { atTop with img := img 0xFFFFFFFE [0x7F, 0xFF] }) =
      some ⟨.success (op .pcDisplacement .word 0 0x7FFF), 4⟩ ∧
    eaAnswer (eaDecode 7 3 .word { atTop with img := img 0xFFFFFFFE [0x00, 0x00] }) =
      some ⟨.success { op .indirectIndexed .word 0 0 with basePc := true, nobase := true }, 4⟩ := by decide

/-- V66, V68, V79 (given directly, the register ignored), V93 (the wrapping long). -/
theorem test_ea_absolute :
    eaAnswer (eaDecode 7 0 .word (eaAt [0x80, 0x00])) =
      some ⟨.success (op .absoluteShort .word 0 0xFFFF8000), 4⟩ ∧
    eaAnswer (eaDecode 7 1 .word (eaAt [0x00, 0xFF, 0x12, 0x34])) =
      some ⟨.success (op .absoluteLong .word 0 0xFF1234), 6⟩ ∧
    eaAnswer (eaDecode 8 5 .word (eaAt [0x00, 0x00, 0x10, 0x00])) =
      some ⟨.success (op .absoluteLong .word 0 0x1000), 6⟩ ∧
    eaAnswer (eaDecode 7 1 .word atTop) =
      some ⟨.success (op .absoluteLong .word 0 0x12345678), 6⟩ := by decide

/-- V72, V74, V76, and V75 with IMM_WORD_EXT = SIGN. -/
theorem test_ea_immediate :
    eaAnswer (eaDecode 7 4 .byte (eaAt [0x12, 0xFF])) =
      some ⟨.success (op .immediate .byte 0 0xFFFFFFFF), 4⟩ ∧
    eaAnswer (eaDecode 7 4 .word (eaAt [0x80, 0x01])) =
      some ⟨.success (op .immediate .word 0 0x8001), 4⟩ ∧
    eaAnswer (eaDecode 7 4 .long (eaAt [0x12, 0x34, 0x56, 0x78])) =
      some ⟨.success (op .immediate .long 0 0x12345678), 6⟩ ∧
    eaAnswer (eaDecode 7 4 .word
        { eaAt [0x80, 0x01] with params := { Params.default with immWordExt := .sign } }) =
      some ⟨.success (op .immediate .word 0 0xFFFF8001), 4⟩ := by decide

/-- V77: the diagnostic, the kind, the size and the cursor; of the value nothing is said. -/
theorem test_ea_immediate_other : ∃ res s, eaDecode 7 4 .other (eaAt []) = .ok (res, s) ∧
    res.ok = true ∧ res.diag = true ∧ res.err = .none ∧ res.op.kind = .immediate ∧ res.op.dsize = .other ∧
    s.cnt = 2 := ⟨_, _, rfl, rfl, rfl, rfl, rfl, rfl, rfl⟩

/-- V82, V86: nothing is fetched; no operand field but the declared size. -/
theorem test_ea_invalid :
    eaAnswer (eaDecode 7 5 .word (eaAt [0x12, 0x34])) =
      some ⟨⟨false, op .dataRegister .word 0 0, .invalidAddressingMode, false⟩, 2⟩ ∧
    eaAnswer (eaDecode 15 7 .long (eaAt [])) =
      some ⟨⟨false, op .dataRegister .long 0 0, .invalidAddressingMode, false⟩, 2⟩ := by decide

/-! ### How a program comes to run (log 8) -/

/-- From reset, with nothing placed, the step waits for the caller. -/
theorem test_reset_idle : step State.reset = .next State.reset := rfl

/-- A row's word, placed where the next step fetches, runs in that very step. -/
theorem test_withFetchWord :
    (answer (step (State.reset.withFetchWord 16 0xE301))).map (fun a => a.record.tag) = some .asl ∧
    (answer (step (State.reset.withFetchWord 16 0xE7F9))).map (fun a => a.len) = some 6 ∧
    (answer (step (State.reset.withFetchWord 16 0xE0C0))).map (fun a => a.err) = some .invalidAddressingMode := by
  decide

/-! ### Witnesses of the statements' hypotheses -/

/-- DecodeOfEncode: a register form and a memory form that are well formed. -/
theorem test_witness_DecodeOfEncode : (Instr.asrImm 7 .long 7).wf = true ∧ (Instr.rolMem true 7 7).wf = true := by
  decide
/-- EncodeOfDecode, SizeCodeSelectsForm: words that decode, with size code 2 and 3. -/
theorem test_witness_EncodeOfDecode :
    decodeWord 0xEE87 = .ok (.asrImm 7 .long 7) ∧ decodeWord 0xEFF9 = .ok (.rolMem true 7 1) := by decide
/-- OneTableRowPerLineEWord: a word of line 0xE and one of another line. -/
theorem test_witness_OneTableRowPerLineEWord : opcodeLine 0xEFFF = 0xE ∧ opcodeLine 0xDFFF ≠ 0xE := by decide
/-- DecoderAgreesWithTable: a row of the table that holds of a word. -/
theorem test_witness_DecoderAgreesWithTable :
    (⟨.asr, .regImm, 0xE000, 0xF138⟩ : OpcodeRow) ∈ opcodeTable ∧
    OpcodeRow.holds ⟨.asr, .regImm, 0xE000, 0xF138⟩ 0xEE87 = true := by decide
/-- SameTagInBothForms: each size a register form has. -/
theorem test_witness_SameTagInBothForms :
    DSize.byte.encodable = true ∧ DSize.word.encodable = true ∧ DSize.long.encodable = true := by decide

/-- Fetches, and the modes with an extension word: two bytes at the next fetch address, also where it is the last word of the
address space. -/
theorem test_witness_nextBytes_word :
    Expected.nextBytes (eaAt [0xA8, 0xF0]) [0xA8, 0xF0] ∧ Expected.nextBytes (eaAt [0x30, 0x00]) [0x30, 0x00] ∧
    Expected.nextBytes atTop [0x12, 0x34] :=
  ⟨⟨rfl, rfl, trivial⟩, ⟨rfl, rfl, trivial⟩, ⟨rfl, rfl, trivial⟩⟩
/-- Fetches, and the modes with a long extension: four bytes there, also where they wrap (V93). -/
theorem test_witness_nextBytes_long :
    Expected.nextBytes (eaAt [0x00, 0xFF, 0x12, 0x34]) [0x00, 0xFF, 0x12, 0x34] ∧
    Expected.nextBytes atTop [0x12, 0x34, 0x56, 0x78] :=
  ⟨⟨rfl, rfl, rfl, rfl, trivial⟩, ⟨rfl, rfl, rfl, rfl, trivial⟩⟩
/-- FetchOutsideImageFaults, and the extension fetches that fault: the first, the last word byte, the last long byte missing. -/
theorem test_witness_FetchOutsideImageFaults :
    (∃ k < 2, (eaAt []).byteAt ((eaAt []).ip + (eaAt []).cnt + k) = none) ∧
    (∃ k < 2, (eaAt [0x12]).byteAt ((eaAt [0x12]).ip + (eaAt [0x12]).cnt + k) = none) ∧
    (∃ k < 4, (eaAt [0x12, 0x34, 0x56]).byteAt
      ((eaAt [0x12, 0x34, 0x56]).ip + (eaAt [0x12, 0x34, 0x56]).cnt + k) = none) :=
  ⟨⟨0, by decide, rfl⟩, ⟨1, by decide, rfl⟩, ⟨3, by decide, rfl⟩⟩

/-- InvalidModeFails: the lowest invalid codes, by sub-group and given directly, and the highest. -/
theorem test_witness_InvalidModeFails :
    11 < (resolveMode 7 5).toNat ∧ 11 < (resolveMode 12 0).toNat ∧ 11 < (resolveMode 15 7).toNat := by decide
/-- DirectModeCodesIgnoreRegister: both ends of the range. -/
theorem test_witness_DirectModeCodesIgnoreRegister :
    (8 ≤ (8#4).toNat ∧ (8#4).toNat ≤ 11 ∧ (1#3).toNat = (8#4).toNat - 7) ∧
    (8 ≤ (11#4).toNat ∧ (11#4).toNat ≤ 11 ∧ (4#3).toNat = (11#4).toNat - 7) := by decide
/-- EaPcDisplacement: the default ADDR_BITS is the one its last clause names. -/
theorem test_witness_EaPcDisplacement :
    Expected.nextBytes (eaAt [0xFF, 0xFE]) [0xFF, 0xFE] ∧ (eaAt [0xFF, 0xFE]).params.addrBits = 32 :=
  ⟨⟨rfl, rfl, trivial⟩, rfl⟩
/-- DeclaredSizeNeverChanged, UnusedOperandFieldsZero, EaExtensionBytes, ConsumedBytesOnlyGrow: calls that answer, with 0, 2 and 4
extension bytes, with the diagnostic, and with a failure. -/
theorem test_witness_eaDecode_answers :
    (∃ res t, eaDecode 2 0 .long (eaAt []) = .ok (res, t)) ∧
    (∃ res t, eaDecode 5 2 .word (eaAt [0xFF, 0xFE]) = .ok (res, t)) ∧
    (∃ res t, eaDecode 11 0 .long (eaAt [0xDE, 0xAD, 0xBE, 0xEF]) = .ok (res, t)) ∧
    (∃ res t, eaDecode 7 4 .other (eaAt []) = .ok (res, t)) ∧
    (∃ res t, eaDecode 7 5 .byte (eaAt []) = .ok (res, t)) :=
  ⟨⟨_, _, rfl⟩, ⟨_, _, rfl⟩, ⟨_, _, rfl⟩, ⟨_, _, rfl⟩, ⟨_, _, rfl⟩⟩
/-- EaDecodeOfEncodedOperand: an indexed operand, a PC-relative one and an immediate that have an encoding, with its bytes in the
image. -/
theorem test_witness_EaDecodeOfEncodedOperand :
    (({ op .indirectIndexed .word 1 0xFFFFFFF0 with xreg := 10, xlong := true } : Operand).encodable .default 0x1002 =
        true ∧
      (eaAt [0xAF, 0xF0]).holds 0x1002 ((encodeEa .default 0x1002 7
        { op .indirectIndexed .word 1 0xFFFFFFF0 with xreg := 10, xlong := true }).ext.flatMap wordBytes)) ∧
    ((op .pcDisplacement .word 0 0x1014).encodable .default 0x1002 = true ∧
      (eaAt [0x00, 0x10]).holds 0x1002
        ((encodeEa .default 0x1002 0 (op .pcDisplacement .word 0 0x1014)).ext.flatMap wordBytes)) ∧
    ((op .immediate .byte 0 0xFFFFFFFF).encodable .default 0x1002 = true ∧
      (eaAt [0x12, 0xFF]).holds 0x1002
        ((encodeEa .default 0x1002 0x12 (op .immediate .byte 0 0xFFFFFFFF)).ext.flatMap wordBytes)) :=
  ⟨⟨by decide, rfl, rfl, trivial⟩, ⟨by decide, rfl, rfl, trivial⟩, ⟨by decide, rfl, rfl, trivial⟩⟩

/-- MemoryFormsRefuseOtherEas: the last register-direct mode, the first and the last refused register of mode 7. -/
theorem test_witness_MemoryFormsRefuseOtherEas :
    ((1#3).toNat ≤ 1 ∨ (1#3 = 7 ∧ 2 ≤ (0#3).toNat)) ∧ ((7#3).toNat ≤ 1 ∨ (7#3 = 7 ∧ 2 ≤ (2#3).toNat)) ∧
    ((7#3).toNat ≤ 1 ∨ (7#3 = 7 ∧ 2 ≤ (7#3).toNat)) := by decide
/-- MemoryFormsFaultOutsideImage: absolute short with its second byte missing (V170 is the first), absolute long with its last
two missing (V171). -/
theorem test_witness_MemoryFormsFaultOutsideImage :
    (∃ k < 2, (eaAt [0x80]).byteAt ((eaAt [0x80]).ip + (eaAt [0x80]).cnt + k) = none) ∧
    (∃ k < 4, (eaAt [0x00, 0x01]).byteAt ((eaAt [0x00, 0x01]).ip + (eaAt [0x00, 0x01]).cnt + k) = none) :=
  ⟨⟨1, by decide, rfl⟩, ⟨2, by decide, rfl⟩⟩
/-- MemoryFormBit11Ignored: a permitted EA (V138) and a refused one (V140). -/
theorem test_witness_MemoryFormBit11Ignored :
    decodeWord 0xEED0 = .ok (.rorMem true 2 0) ∧ decodeWord 0xE8C0 = .ok (.asrMem true 0 0) ∧
    (Instr.rorMem true 2 0).form = .mem := by decide
/-- InstructionFrame, ConsumedBytesOnlyGrow: each form answers a next state. -/
theorem test_witness_InstructionFrame :
    (∃ t, exec (.asrImm 7 .long 7) (eaAt []) = .next t) ∧ (∃ t, exec (.rolReg 0 .word 4) (eaAt []) = .next t) ∧
    (∃ t, exec (.lslMem false 5 0) (eaAt [0x7F, 0xFF]) = .next t) ∧ (Instr.asrImm 7 .long 7).form ≠ .mem :=
  ⟨⟨_, rfl⟩, ⟨_, rfl⟩, ⟨_, rfl⟩, by decide⟩

/-- DecodeFollowsItsPseudocode: an odd address; an even one whose fetch faults; an even one with a word of each kind of line. -/
theorem test_witness_DecodeFollowsItsPseudocode :
    0x2001 % 2 = 1 ∧ 0x2000 % 2 = 0 ∧
    (∃ f, fetchWord (Expected.startedAt (ask 0x2000 []) 0x2000) = .error f) ∧
    (∃ t, fetchWord (Expected.startedAt (ask 0x2000 (img 0x2000 [0x4E, 0x75])) 0x2000) = .ok (0x4E75, t)) ∧
    (∃ t, fetchWord (Expected.startedAt (ask 0x2000 (img 0x2000 [0xE3, 0x01])) 0x2000) = .ok (0xE301, t)) ∧
    opcodeLine 0x4E75 ≠ 0xE ∧ opcodeLine 0xE301 = 0xE :=
  ⟨rfl, rfl, ⟨_, rfl⟩, ⟨_, rfl⟩, ⟨_, rfl⟩, by decide, by decide⟩
/-- StepRunsDecodedInstruction: an instruction that answers, by a single call and in a scan, and one that faults. -/
theorem test_witness_StepRunsDecodedInstruction :
    ((ask 0x2000 (img 0x2000 [0xE3, 0x01])).asksDecode 0x2000 ∧ (ask 0x2000 (img 0x2000 [0xE3, 0x01])).busy = false ∧
      (ask 0x2000 (img 0x2000 [0xE3, 0x01])).holds 0x2000 [0xE3, 0x01] ∧
      decode [0xE3, 0x01] = .ok (.aslImm 1 .byte 1, []) ∧
      ∃ u, exec (.aslImm 1 .byte 1)
        { Expected.startedAt (ask 0x2000 (img 0x2000 [0xE3, 0x01])) 0x2000 with cnt := 2 } = .next u) ∧
    ((scanning 0x2000 0x2004 (img 0x2000 [0xE1, 0xF8])).asksDecode 0x2000 ∧
      (scanning 0x2000 0x2004 (img 0x2000 [0xE1, 0xF8])).holds 0x2000 [0xE1, 0xF8] ∧
      decode [0xE1, 0xF8] = .ok (.aslMem false 7 0, []) ∧
      ∃ f, exec (.aslMem false 7 0)
        { Expected.startedAt (scanning 0x2000 0x2004 (img 0x2000 [0xE1, 0xF8])) 0x2000 with cnt := 2 } = .fault f) :=
  ⟨⟨.inl rfl, rfl, ⟨rfl, rfl, trivial⟩, by decide, _, rfl⟩,
   ⟨.inr ⟨_, rfl, by decide⟩, ⟨rfl, rfl, trivial⟩, by decide, _, rfl⟩⟩
/-- OtherLinesUnsupported: the lines on both sides of 0xE, and 0xE itself. -/
theorem test_witness_OtherLinesUnsupported :
    (ask 0x2000 (img 0x2000 [0xDF, 0xFF])).holds 0x2000 [0xDF, 0xFF] ∧ (0xDF#8).toNat / 16 ≠ 14 ∧
    (ask 0x2000 (img 0x2000 [0xF0, 0x00])).holds 0x2000 [0xF0, 0x00] ∧ (0xF0#8).toNat / 16 ≠ 14 ∧
    (ask 0x2000 (img 0x2000 [0xEF, 0xFF])).holds 0x2000 [0xEF, 0xFF] ∧ (0xEF#8).toNat / 16 = 14 :=
  ⟨⟨rfl, rfl, trivial⟩, by decide, ⟨rfl, rfl, trivial⟩, by decide, ⟨rfl, rfl, trivial⟩, by decide⟩
/-- OddAddressAlwaysFails (V162). -/
theorem test_witness_OddAddressAlwaysFails :
    (ask 0x2001 []).asksDecode 0x2001 ∧ (ask 0x2001 []).busy = false ∧ 0x2001 % 2 = 1 := ⟨.inl rfl, rfl, rfl⟩
/-- DispatchResponse, CursorAfterFailure: a success and each of the three failures. -/
theorem test_witness_DispatchResponse :
    (∃ t, decodeAttempt 0x2000 (ask 0x2000 (img 0x2000 [0xE3, 0x01])) = .next t ∧ t.err = .none) ∧
    (∃ t, decodeAttempt 0x2001 (ask 0x2001 []) = .next t ∧ t.err = .invalidAlignment) ∧
    (∃ t, decodeAttempt 0x2000 (ask 0x2000 (img 0x2000 [0x4E, 0x75])) = .next t ∧ t.err = .unsupportedOpcodeLine) ∧
    (∃ t, decodeAttempt 0x2000 (ask 0x2000 (img 0x2000 [0xE0, 0xC0])) = .next t ∧ t.err = .invalidAddressingMode) :=
  ⟨⟨_, rfl, rfl⟩, ⟨_, rfl, rfl⟩, ⟨_, rfl, rfl⟩, ⟨_, rfl, rfl⟩⟩

/-- StepRunsDirectEaCall: a call that answers and one that faults. -/
theorem test_witness_StepRunsDirectEaCall :
    (∃ res u, eaDecode 5 2 .word (Expected.started { eaAt [0xFF, 0xFE] with request := .ea 5 2 .word }) = .ok (res, u)) ∧
    (∃ f, eaDecode 5 2 .word (Expected.started { eaAt [0xFF] with request := .ea 5 2 .word }) = .error f) ∧
    (eaAt [0xFF]).busy = false := ⟨⟨_, _, rfl⟩, ⟨_, rfl⟩, rfl⟩
/-- OverlappingAttemptRefused: each request that uses the cursor, in a state with an attempt in progress. -/
theorem test_witness_OverlappingAttemptRefused :
    (({ ask 0x2000 [] with busy := true } : State).busy = true ∧
      ({ ask 0x2000 [] with busy := true } : State).asksDecode 0x2000) ∧
    ({ eaAt [] with busy := true, request := .ea 2 0 .word } : State).request = .ea 2 0 .word ∧
    ({ eaAt [] with busy := true, request := .place 0x2000 0 } : State).request = .place 0x2000 0 :=
  ⟨⟨rfl, .inl rfl⟩, rfl, rfl⟩
/-- CallerIdleAndPlacing: a state of each of its three requests, the scan just at its end. -/
theorem test_witness_CallerIdleAndPlacing :
    State.reset.request = .idle ∧ (scanning 0x100E 0x100E []).request = .scan 0x100E 0x100E ∧ 0x100E ≤ 0x100E ∧
    ({ State.reset with request := .place 0x1000 2 } : State).request = .place 0x1000 2 ∧
    State.reset.busy = false := ⟨rfl, rfl, by decide, rfl, rfl⟩
/-- ScanResynchronises, ScanNeverStays: a scan that answers, after a success and after a failure at its last address; and in the
smallest address space that the last statement admits. -/
theorem test_witness_ScanResynchronises :
    (∃ t, step (scanning 0x1006 0x100E (img 0x1006 [0xE6, 0xF9, 0x00, 0xFF, 0x12, 0x34])) = .next t) ∧
    (∃ t, step (scanning 0x3009 0x300A []) = .next t) ∧
    (∃ t, step { scanning 6 8 [(0, 0), (1, 0), (2, 0), (3, 1), (6, 0xE7), (7, 0xF9)] with
        params := { Params.default with addrBits := 3 } } = .next t ∧ t.request = .scan 4 8) ∧
    3 ≤ 3 ∧ 6 < 2 ^ 3 := ⟨⟨_, rfl⟩, ⟨_, rfl⟩, ⟨_, rfl, rfl⟩, by decide, by decide⟩
/-- ScanSkipsUndecodableWord (P2, attempt 0). -/
theorem test_witness_ScanSkipsUndecodableWord :
    0x3000 % 2 = 0 ∧ 0x3000 + 1 < 0x300A ∧ 0x3000 + 2 < 2 ^ (scanning 0x3000 0x300A []).params.addrBits ∧
    ∃ t, step (scanning 0x3000 0x300A (img 0x3000 [0xE0, 0xC0])) = .next t ∧ t.err ≠ .none :=
  ⟨rfl, by decide, by decide, _, rfl, nofun⟩
/-- ImageNeverWritten, ParametersNeverChange, StepKeepsInvariant: a state that meets the invariant, reset with a canonical image and
a call asked, and a step that answers. -/
theorem test_witness_StepKeepsInvariant :
    (ask 0x2000 (img 0x2000 [0xE3, 0x01])).Inv ∧ ∃ t, step (ask 0x2000 (img 0x2000 [0xE3, 0x01])) = .next t := by
  refine ⟨⟨?_, by decide, .inl rfl, rfl, fun _ => rfl, rfl, nofun, nofun⟩, _, rfl⟩
  show Image.wf [(0x2000, 0xE3), (0x2001, 0x01)]
  simp
/-- ConsumedBytesOnlyGrow: the two fetches answer. -/
theorem test_witness_ConsumedBytesOnlyGrow :
    (∃ w t, fetchWord (eaAt [0x12, 0x34]) = .ok (w, t)) ∧ (∃ v t, fetchLong atTop = .ok (v, t)) :=
  ⟨⟨_, _, rfl⟩, ⟨_, _, rfl⟩⟩
/-- AssembledMemoryInstructionDecodes (V137). -/
theorem test_witness_AssembledMemoryInstructionDecodes :
    (op .absoluteLong .word 0 0x10000).isMemoryOperand = true ∧
    (op .absoluteLong .word 0 0x10000).encodable .default 0x2002 = true ∧
    (ask 0x2000 (img 0x2000 [0xE7, 0xF9, 0x00, 0x01, 0x00, 0x00])).asksDecode 0x2000 ∧
    (ask 0x2000 (img 0x2000 [0xE7, 0xF9, 0x00, 0x01, 0x00, 0x00])).holds 0x2000
      (instrBytes (.memForm .rol false 7 1)
        (encodeEa .default 0x2002 0 (op .absoluteLong .word 0 0x10000)).ext) :=
  ⟨by decide, by decide, .inl rfl, rfl, rfl, rfl, rfl, rfl, rfl, trivial⟩
/-- AttemptDependsOnlyOnItsBytes: two different states whose images agree on the six bytes. -/
theorem test_witness_AttemptDependsOnlyOnItsBytes :
    (ask 0x2000 (img 0x2000 [0xE3, 0x01])).params = (scanning 0x2000 0x3000 (img 0x1FFF [0x55, 0xE3, 0x01])).params ∧
    (∀ k < 6, (ask 0x2000 (img 0x2000 [0xE3, 0x01])).byteAt (0x2000 + k) =
      (scanning 0x2000 0x3000 (img 0x1FFF [0x55, 0xE3, 0x01])).byteAt (0x2000 + k)) ∧
    (ask 0x2000 (img 0x2000 [0xE3, 0x01])).asksDecode 0x2000 ∧
    (scanning 0x2000 0x3000 (img 0x1FFF [0x55, 0xE3, 0x01])).asksDecode 0x2000 :=
  ⟨rfl, by decide, .inl rfl, .inr ⟨_, rfl, by decide⟩⟩
/-- ReadableAttemptIsSafe: six readable bytes that are no instruction, and that wrap. -/
theorem test_witness_ReadableAttemptIsSafe :
    (ask 0xFFFFFFFE [(0, 1), (1, 2), (2, 3), (3, 4), (0xFFFFFFFE, 0x4E), (0xFFFFFFFF, 0x75)]).sixBytesReadable
      0xFFFFFFFE := by
  unfold State.sixBytesReadable
  decide
/-- ChangingImageGivesSomeImagesAnswer. -/
theorem test_witness_ChangingImageGivesSomeImagesAnswer :
    ({ ask 0x2000 [] with imgChanging := true } : State).imgChanging = true := rfl

end Sys2Proof.Tests
end

/-! ### 10_state.md: an operand's declared size (R33) and the bytes consumed (R22) -/

namespace Sys2Proof.Machine

/-- Everything an EA Decoder call that answers can have done: the failure of R122 with nothing fetched, a plain success
after 0, 2 or 4 extension bytes, or the undefined immediate with its diagnostic (R140). -/
theorem eaDecode_ok {modeCode : BitVec 4} {r : BitVec 3} {d : DSize} {s t : State} {res : EaResult}
    (h : eaDecode modeCode r d s = .ok (res, t)) :
    (res = .invalidMode d ∧ t = s) ∨
    (∃ op n, res = .success op ∧ op.dsize = d ∧ op.unusedZero = true ∧ (n = 0 ∨ n = 2 ∨ n = 4) ∧
      t = s.advance n) ∨
    (d = .other ∧ t = (drawValue s).2 ∧
      res = { ok := true, op := valOperand .immediate (drawValue s).1 .other, err := .none, diag := true }) := by
  rcases eaDecode_cases modeCode r d s with ⟨-, e⟩ | ⟨m, -, e⟩ <;> rw [e] at h
  · cases h
    exact .inl ⟨rfl, rfl⟩
  · rcases resolveOperand_ok h with hs | ⟨-, hu⟩
    · exact .inr (.inl hs)
    · exact .inr (.inr hu)

theorem eaDecode_dsize {modeCode : BitVec 4} {r : BitVec 3} {d : DSize} {s t : State} {res : EaResult}
    (h : eaDecode modeCode r d s = .ok (res, t)) : res.op.dsize = d := by
  rcases eaDecode_ok h with ⟨rfl, -⟩ | ⟨op, n, rfl, hd, -⟩ | ⟨rfl, -, rfl⟩
  · rfl
  · exact hd
  · rfl

theorem eaDecode_cnt_le {modeCode : BitVec 4} {r : BitVec 3} {d : DSize} {s t : State} {res : EaResult}
    (h : eaDecode modeCode r d s = .ok (res, t)) : s.cnt ≤ t.cnt := by
  rcases eaDecode_ok h with ⟨-, rfl⟩ | ⟨op, n, -, -, -, -, rfl⟩ | ⟨-, rfl, -⟩ <;> simp

theorem fetchWord_cnt_le {s t : State} {w : Word} (h : fetchWord s = .ok (w, t)) : s.cnt ≤ t.cnt := by
  simp [fetchWord_ok h]

theorem fetchLong_cnt_le {s t : State} {v : Long} (h : fetchLong s = .ok (v, t)) : s.cnt ≤ t.cnt := by
  simp [fetchLong_ok h]

/-- A refused EA fetches nothing (R165); a permitted one adds its extension. -/
theorem lineEMem_cnt_le {tag : Tag} {mode reg : BitVec 3} {s t : State}
    (h : lineEMem tag mode reg s = .next t) : s.cnt ≤ t.cnt := by
  rcases lineEMem_cases tag mode reg s with ⟨-, e⟩ | ⟨-, e⟩ | ⟨-, op, n, -, -, -, -, e⟩ <;> rw [e] at h <;>
    cases h <;> simp

/-- A register form fetches nothing (R161). -/
theorem lineEReg_cnt {tag : Tag} {src : Operand} {size : DSize} {dreg : BitVec 3} {s t : State}
    (h : lineEReg tag src size dreg s = .next t) : t.cnt = s.cnt := by
  cases h
  exact respond_cnt _ s

theorem exec_cnt_le {i : Instr} {s t : State} (h : exec i s = .next t) : s.cnt ≤ t.cnt := by
  rcases exec_cases i s with ⟨c, z, r, ⟨-, e⟩ | ⟨-, e⟩⟩ | ⟨x, m, r, -, e⟩ <;> rw [e] at h
  · exact (lineEReg_cnt h).ge
  · exact (lineEReg_cnt h).ge
  · exact lineEMem_cnt_le h

/-- Settles O25: the invalid mode answers the shell of the declared size, and every mode builds its operand on that shell. -/
theorem declaredSizeNeverChanged : Obligations.DeclaredSizeNeverChanged :=
  fun _ _ _ _ _ _ => eaDecode_dsize

/-- Settles O53: each operation of an attempt only advances the cursor, by the case lemma of that operation. -/
theorem consumedBytesOnlyGrow : Obligations.ConsumedBytesOnlyGrow :=
  ⟨fun _ _ _ => fetchWord_cnt_le, fun _ _ _ => fetchLong_cnt_le, fun _ _ _ _ _ _ => eaDecode_cnt_le,
    fun _ _ _ => exec_cnt_le⟩

end Sys2Proof.Machine

/-! ### 20_memory.md: the Word Source (R53, R54) and the code image (R51) -/

namespace Sys2Proof.Machine

/-! ### The bytes at the next fetch address -/

theorem fetchWord_of_nextBytes {s : State} {b0 b1 : Byte} (h : Expected.nextBytes s [b0, b1]) :
    fetchWord s = .ok (b0 ++ b1, s.advance 2) := by
  obtain ⟨h0, h1, -⟩ := h
  exact fetchWord_of_bytes h0 h1

theorem fetchLong_of_nextBytes {s : State} {b0 b1 b2 b3 : Byte}
    (h : Expected.nextBytes s [b0, b1, b2, b3]) :
    fetchLong s = .ok (b0 ++ b1 ++ b2 ++ b3, s.advance 4) := by
  obtain ⟨h0, h1, h2, h3, -⟩ := h
  exact fetchLong_of_bytes h0 h1 h2 h3

/-- Settles O11: each fetch reads the bytes at its fetch address and only advances the cursor. -/
theorem fetchesReadAndAdvance : Obligations.FetchesReadAndAdvance :=
  ⟨fun _ _ _ => fetchWord_of_nextBytes, fun _ _ _ _ _ => fetchLong_of_nextBytes⟩

/-! ### What keeps the image -/

/-- A direct EA Decoder call that answers gives the result of the decoder, started on the cursor as it stands (R120). -/
theorem eaAttempt_next {m : BitVec 4} {r : BitVec 3} {d : DSize} {s u : State}
    (h : eaAttempt m r d s = .next u) :
    ∃ res v, eaDecode m r d (beginAttempt s) = .ok (res, v) ∧ u = eaRespond res v := by
  unfold eaAttempt at h
  cases he : eaDecode m r d (beginAttempt s) with
  | error f => rw [he] at h; cases h
  | ok p => rw [he] at h; cases h; exact ⟨p.1, p.2, rfl, rfl⟩

theorem eaDecode_img {m : BitVec 4} {r : BitVec 3} {d : DSize} {s t : State} {res : EaResult}
    (h : eaDecode m r d s = .ok (res, t)) : t.img = s.img := by
  rcases eaDecode_ok h with ⟨-, rfl⟩ | ⟨op, n, -, -, -, -, rfl⟩ | ⟨-, rfl, -⟩
  · rfl
  · exact advance_img s n
  · exact drawValue_img s

theorem eaAttempt_img {m : BitVec 4} {r : BitVec 3} {d : DSize} {s u : State}
    (h : eaAttempt m r d s = .next u) : u.img = s.img := by
  obtain ⟨res, v, he, rfl⟩ := eaAttempt_next h
  calc (eaRespond res v).img = v.img := eaRespond_img res v
    _ = (beginAttempt s).img := eaDecode_img he
    _ = s.img := beginAttempt_img s

/-- However a Dispatch attempt ends, its last state is the started one with the cursor advanced and the outputs set. -/
theorem decodeAttempt_img {addr : Nat} {s u : State} (h : decodeAttempt addr s = .next u) :
    u.img = s.img := by
  rcases decodeAttempt_next h with ⟨-, rfl⟩ | ⟨-, e, -, rfl⟩ | ⟨-, r, n, -, -, -, -, rfl⟩
  · simp only [fail_img, startDecode_img]
  · simp only [fail_img, advance_img, startDecode_img]
  · simp only [respond_img, advance_img, startDecode_img]

theorem step_img {s t : State} (h : step s = .next t) : t.img = s.img := by
  rcases step_cases h with ⟨rfl, -⟩ | ⟨ip, cnt, -, -, rfl⟩ | ⟨addr, u, -, -, hu, rfl⟩ |
    ⟨m, r, d, u, -, -, hu, rfl⟩
  · rfl
  · rw [callerGoesOn_img, placeCursor_img]
  · rw [callerGoesOn_img, decodeAttempt_img hu]
  · rw [callerGoesOn_img, eaAttempt_img hu]

/-- Settles O51: no request a step can serve writes the image, so every byte of it reads as before. -/
theorem imageNeverWritten : Obligations.ImageNeverWritten := by
  intro s t h
  have himg : t.img = s.img := step_img h
  exact ⟨himg, fun a => by rw [himg]⟩

end Sys2Proof.Machine

/-! ### 40_field_extractor.md: the slices of a word as numbers (R100 to R106) -/

namespace Sys2Proof

/-- Bits `i + n - 1` down to `i` of a word, as a number: what lies below bit `i` is divided away, what lies above the
slice is a multiple of `2 ^ n`. -/
theorem toNat_slice (w : Word) (i n : Nat) : (w.extractLsb' i n).toNat = w.toNat / 2 ^ i % 2 ^ n := by
  rw [BitVec.extractLsb'_toNat, Nat.shiftRight_eq_div_pow]

theorem toNat_regLo (w : Word) : (regLo w).toNat = w.toNat % 8 := by
  have h : (regLo w).toNat = w.toNat / 1 % 8 := toNat_slice w 0 3
  rwa [Nat.div_one] at h

theorem toNat_modeLo (w : Word) : (modeLo w).toNat = w.toNat / 8 % 8 := toNat_slice w 3 3

theorem toNat_sizeCode (w : Word) : (sizeCode w).toNat = w.toNat / 64 % 4 := toNat_slice w 6 2

theorem toNat_modeHi (w : Word) : (modeHi w).toNat = w.toNat / 64 % 8 := toNat_slice w 6 3

theorem toNat_regHi (w : Word) : (regHi w).toNat = w.toNat / 512 % 8 := toNat_slice w 9 3

theorem toNat_opcodeLine (w : Word) : (opcodeLine w).toNat = w.toNat / 4096 % 16 := toNat_slice w 12 4

theorem toNat_xregField (w : Word) : (xregField w).toNat = w.toNat / 4096 % 16 := toNat_slice w 12 4

/-- The example words of R100 to R106. -/
theorem slice_examples :
    regLo 0xE301 = 1 ∧ modeLo 0xE3A8 = 5 ∧ sizeCode 0xE3A8 = 2 ∧ sizeCode 0xE1F8 = 3 ∧ modeHi 0xE301 = 4 ∧
    regHi 0xE301 = 1 ∧ regHi 0xEE87 = 7 ∧ opcodeLine 0xE301 = 0xE ∧ opcodeLine 0x4E71 = 4 ∧
    xregField 0x9810 = 9 := by
  decide

/-- Settles O1: each slice is the word divided by the place of its lowest bit, modulo its range. -/
theorem fieldExtractorSlices : Obligations.FieldExtractorSlices :=
  ⟨fun w => ⟨toNat_regLo w, toNat_modeLo w, toNat_sizeCode w, toNat_modeHi w, toNat_regHi w, toNat_opcodeLine w,
    toNat_xregField w⟩, slice_examples⟩

end Sys2Proof

/-! ### 41_ea_decoder.md: the sub-group of mode code 7 (R121) -/

namespace Sys2Proof.Machine

theorem resolveMode_seven (r : BitVec 3) : resolveMode 7 r = 7 + r.setWidth 4 :=
  if_pos rfl

/-- The sum of the sub-group is at most 14, so the four bits of a mode code hold it. -/
theorem toNat_resolveMode_seven (r : BitVec 3) : (resolveMode 7 r).toNat = 7 + r.toNat := by
  have hsum : 7 + r.toNat < 2 ^ 4 := by omega
  rw [resolveMode_seven, BitVec.toNat_add, BitVec.toNat_setWidth_of_le (by decide)]
  exact Nat.mod_eq_of_lt hsum

theorem resolveMode_of_ne_seven {m : BitVec 4} (h : m ≠ 7) (r : BitVec 3) : resolveMode m r = m :=
  if_neg h

/-- Settles O14: mode code 7 selects its sub-mode by the sum, which does not wrap; any other code is its own. -/
theorem modeSevenAddsRegisterIndex : Obligations.ModeSevenAddsRegisterIndex := by
  intro m r
  by_cases h : m = 7
  · subst h
    exact toNat_resolveMode_seven r
  · have hm : m.toNat ≠ 7 := fun e => h (BitVec.eq_of_toNat_eq e)
    rw [if_neg hm, resolveMode_of_ne_seven h]

end Sys2Proof.Machine

/-! ### 42_line_e.md: the size code selects the form (R160) -/

namespace Sys2Proof

/-- The size codes of the register forms, in the order of R160. -/
theorem registerSizes_getElem? {z : BitVec 2} (h : z ≠ 3) :
    [DSize.byte, .word, .long][z.toNat]? = some (dsizeOf z) := by
  revert z
  decide

theorem decodeLineE_memForm {iw : InstructionWord} (h : iw.size = 3) :
    ∃ t x m r, decodeLineE iw = .memForm t x m r :=
  ⟨_, _, _, _, if_pos h⟩

/-- Bit 5 only tells the two register forms apart; their size is that of the size code. -/
theorem decodeLineE_registerForm {iw : InstructionWord} (h : iw.size ≠ 3) :
    ∃ t c r, decodeLineE iw = .immForm t c (dsizeOf iw.size) r ∨
      decodeLineE iw = .regForm t c (dsizeOf iw.size) r := by
  rw [decodeLineE, if_neg h]
  by_cases hbit : iw.modeLo.getLsbD 2 = true
  · exact ⟨_, _, _, .inr (if_pos hbit)⟩
  · exact ⟨_, _, _, .inl (if_neg hbit)⟩

/-- Only a word of line 0xE decodes, and then to the line-E instruction of its fields. -/
theorem eq_decodeLineE_of_decodeWord {w : Word} {i : Instr} (h : decodeWord w = .ok i) :
    i = decodeLineE (extractFields w) := by
  rcases decodeWord_cases w with ⟨-, e⟩ | ⟨-, e⟩ <;> rw [e] at h <;> cases h
  rfl

/-- Settles O7: what decodes is the line-E instruction of the word's fields, whose size field is the size code. -/
theorem sizeCodeSelectsForm : Obligations.SizeCodeSelectsForm := by
  intro w i h
  obtain rfl := eq_decodeLineE_of_decodeWord h
  constructor
  · intro hs
    exact decodeLineE_memForm (iw := extractFields w) hs
  · intro hs
    exact ⟨dsizeOf (sizeCode w), registerSizes_getElem? hs, decodeLineE_registerForm (iw := extractFields w) hs⟩

end Sys2Proof

/-! ### 30_encoding.md: words and instructions, in both directions (R73 to R75; D3, D13) -/

namespace Sys2Proof

/-! ### Tags by kind selector and direction -/

/-- TAG_TABLE names every operation (R164). -/
theorem exists_lineETag (t : Tag) : ∃ k d, lineETag k d = t := by
  cases t
  case asr => exact ⟨0, 0, rfl⟩
  case asl => exact ⟨0, 1, rfl⟩
  case lsr => exact ⟨1, 0, rfl⟩
  case lsl => exact ⟨1, 1, rfl⟩
  case roxr => exact ⟨2, 0, rfl⟩
  case roxl => exact ⟨2, 1, rfl⟩
  case ror => exact ⟨3, 0, rfl⟩
  case rol => exact ⟨3, 1, rfl⟩

/-- Two pairs `{t, d}` name one operation only when they are the same pair. -/
theorem lineETag_inj {k k' : BitVec 2} {d d' : BitVec 1} :
    lineETag k d = lineETag k' d' ↔ k = k' ∧ d = d' := by
  constructor
  · intro h
    have hcode : k ++ d = k' ++ d' := by rw [← tagCode_lineETag, h, tagCode_lineETag]
    revert hcode
    revert k k' d d'
    decide
  · rintro ⟨rfl, rfl⟩
    rfl

/-! ### Decode of encode -/

theorem decodeWord_encodeWord {i : Instr} (h : i.wf = true) : decodeWord (encodeWord i) = .ok i := by
  obtain ⟨k, d, ht⟩ := exists_lineETag i.tag
  rcases Machine.instr_forms i with ⟨c, z, r, hi⟩ | ⟨c, z, r, hi⟩ | ⟨x, m, r, hi⟩ <;>
    rw [← ht] at hi <;> subst hi
  · rw [encodeWord_immForm]
    exact Laws.DecodeEncode.decode_immWord c d k r (by simpa using h)
  · rw [encodeWord_regForm]
    exact Laws.DecodeEncode.decode_regWord c d k r (by simpa using h)
  · rw [encodeWord_memForm]
    exact Laws.DecodeEncode.decode_memWord x k d m r

/-- The decoder takes the first two bytes as a word and gives the rest back. -/
theorem decode_wordBytes {w : Word} {i : Instr} (h : decodeWord w = .ok i) (rest : List Byte) :
    decode (wordBytes w ++ rest) = .ok (i, rest) := by
  have hw : decodeWord (w.extractLsb' 8 8 ++ w.extractLsb' 0 8) = .ok i := by
    rw [wordBytes_append]; exact h
  simp only [wordBytes, List.cons_append, List.nil_append, decode, hw]

/-- Settles O3: an instruction is its row's form with the tag's `{t, d}`, and the Field Extractor reads each form's
fields back. -/
theorem decodeOfEncode : Obligations.DecodeOfEncode := by
  intro i rest h
  have hbytes : (encode i).flatMap wordBytes = wordBytes (encodeWord i) := by
    simp [encode]
  rw [hbytes]
  exact decode_wordBytes (decodeWord_encodeWord h) rest

/-! ### What a word decodes to, by its bits -/

theorem extractLsb'_extractLsb' (w : Word) (i j n m : Nat) (h : j + m ≤ n) :
    (w.extractLsb' i n).extractLsb' j m = w.extractLsb' (i + j) m := by
  apply BitVec.eq_of_getLsbD_eq
  intro b hb
  simp only [BitVec.getLsbD_extractLsb', hb, decide_true, Bool.true_and,
    decide_eq_true (show j + b < n by omega), Nat.add_assoc]

theorem decodeWord_eq_ok_iff {w : Word} {i : Instr} :
    decodeWord w = .ok i ↔ opcodeLine w = 0xE ∧ i = decodeLineE (extractFields w) := by
  rcases decodeWord_cases w with ⟨hl, e⟩ | ⟨hl, e⟩ <;> rw [e]
  · simp [hl, eq_comm]
  · exact ⟨nofun, fun h => absurd h.1 hl⟩

/-- Bit 5 of a word, as the Line-E Decoder reads it and as a slice. -/
theorem modeLo_getLsbD_two (w : Word) : (modeLo w).getLsbD 2 = (w.extractLsb' 5 1 == 1) := by
  have hb : ∀ b : BitVec 1, b.getLsbD 0 = (b == 1) := by decide
  rw [← hb]
  simp [modeLo]

/-- The instruction of a line-E word, form by form, with its tag taken from the word's bits (R73, R74, R160). -/
theorem decodeLineE_word_cases (w : Word) :
    (sizeCode w = 3 ∧ decodeLineE (extractFields w) =
      .memForm (lineETag (w.extractLsb' 9 2) (w.extractLsb' 8 1)) (w.getLsbD 11) (modeLo w) (regLo w)) ∨
    (sizeCode w ≠ 3 ∧ w.extractLsb' 5 1 = 1 ∧ decodeLineE (extractFields w) =
      .regForm (lineETag (w.extractLsb' 3 2) (w.extractLsb' 8 1)) (regHi w) (dsizeOf (sizeCode w)) (regLo w)) ∨
    (sizeCode w ≠ 3 ∧ w.extractLsb' 5 1 = 0 ∧ decodeLineE (extractFields w) =
      .immForm (lineETag (w.extractLsb' 3 2) (w.extractLsb' 8 1)) (regHi w) (dsizeOf (sizeCode w)) (regLo w)) := by
  have hmode : (modeLo w).extractLsb' 0 2 = w.extractLsb' 3 2 := extractLsb'_extractLsb' w 3 0 3 2 (by decide)
  have hdir : (modeHi w).extractLsb' 2 1 = w.extractLsb' 8 1 := extractLsb'_extractLsb' w 6 2 3 1 (by decide)
  have hkind : (regHi w).extractLsb' 0 2 = w.extractLsb' 9 2 := extractLsb'_extractLsb' w 9 0 3 2 (by decide)
  have hx : (regHi w).getLsbD 2 = w.getLsbD 11 := by simp [regHi]
  simp only [decodeLineE, extractFields, hmode, hdir, hkind, hx, modeLo_getLsbD_two]
  by_cases hs : sizeCode w = 3
  · exact .inl ⟨hs, if_pos hs⟩
  · rw [if_neg hs]
    rcases bitVec1_cases (w.extractLsb' 5 1) with h5 | h5 <;> rw [h5]
    · exact .inr (.inr ⟨hs, rfl, rfl⟩)
    · exact .inr (.inl ⟨hs, rfl, rfl⟩)

/-! ### Encode of decode -/

theorem encodeWord_decodeLineE {w : Word} (h : opcodeLine w = 0xE) :
    encodeWord (decodeLineE (extractFields w)) = w := by
  rcases decodeLineE_word_cases w with ⟨hs, e⟩ | ⟨-, h5, e⟩ | ⟨-, h5, e⟩ <;> rw [e]
  · rw [encodeWord_memForm, word_memParts w h hs]
  · rw [encodeWord_regForm, ← h5, word_regParts w h]
  · rw [encodeWord_immForm, ← h5, word_regParts w h]

/-- Settles O4: each form's layout, made of the word's own slices, is the word. -/
theorem encodeOfDecode : Obligations.EncodeOfDecode := by
  intro w i h
  obtain ⟨hl, rfl⟩ := decodeWord_eq_ok_iff.1 h
  exact ⟨decodeWord_wf h, encodeWord_decodeLineE hl⟩

/-! ### 30_encoding.md section 5: the opcode table -/

/-- The table's row of the register form with an immediate count of the operation `{t, d}`: its fixed bits are those
of the form's layout, the other fields 0. -/
def immRow (k : BitVec 2) (d : BitVec 1) : OpcodeRow :=
  ⟨lineETag k d, .regImm, encodeRegWord 0 d .byte 0 k 0, 0xF138⟩

/-- The row of the register form with a register count. -/
def regRow (k : BitVec 2) (d : BitVec 1) : OpcodeRow :=
  ⟨lineETag k d, .regReg, encodeRegWord 0 d .byte 1 k 0, 0xF138⟩

/-- The row of the memory form. -/
def memRow (k : BitVec 2) (d : BitVec 1) : OpcodeRow :=
  ⟨lineETag k d, .mem, encodeMemWord false k d 0 0, 0xF7C0⟩

theorem mem_opcodeTable {r : OpcodeRow} (h : r ∈ opcodeTable) :
    ∃ k d, r = immRow k d ∨ r = regRow k d ∨ r = memRow k d := by
  revert r
  decide

theorem append_inj {n m : Nat} {a b : BitVec n} {c e : BitVec m} : a ++ c = b ++ e ↔ a = b ∧ c = e := by
  constructor
  · intro h
    have hl : (a ++ c).extractLsb' m n = (b ++ e).extractLsb' m n := by rw [h]
    have hr : (a ++ c).extractLsb' 0 m = (b ++ e).extractLsb' 0 m := by rw [h]
    rw [BitVec.extractLsb'_append_eq_left, BitVec.extractLsb'_append_eq_left] at hl
    rw [BitVec.extractLsb'_append_eq_right, BitVec.extractLsb'_append_eq_right] at hr
    exact ⟨hl, hr⟩
  · rintro ⟨rfl, rfl⟩
    rfl

/-- What the mask of the register forms leaves of a word: line, direction, bit 5 and kind selector. -/
theorem and_regMask (w : Word) :
    w &&& 0xF138 =
      opcodeLine w ++ 0#3 ++ w.extractLsb' 8 1 ++ 0#2 ++ w.extractLsb' 5 1 ++ w.extractLsb' 3 2 ++ 0#3 := by
  apply BitVec.eq_of_getLsbD_eq
  intro i hi
  simp only [BitVec.getLsbD_and, BitVec.getLsbD_append, opcodeLine, BitVec.getLsbD_extractLsb']
  interval_cases i <;> simp

/-- What the mask of the memory forms leaves of a word: line, kind selector, direction and size code. -/
theorem and_memMask (w : Word) :
    w &&& 0xF7C0 = opcodeLine w ++ 0#1 ++ w.extractLsb' 9 2 ++ w.extractLsb' 8 1 ++ sizeCode w ++ 0#3 ++ 0#3 := by
  apply BitVec.eq_of_getLsbD_eq
  intro i hi
  simp only [BitVec.getLsbD_and, BitVec.getLsbD_append, opcodeLine, sizeCode, BitVec.getLsbD_extractLsb']
  interval_cases i <;> simp

theorem and_regMask_eq {w : Word} {k : BitVec 2} {d ir : BitVec 1} :
    w &&& 0xF138 = encodeRegWord 0 d .byte ir k 0 ↔
      opcodeLine w = 0xE ∧ w.extractLsb' 5 1 = ir ∧ w.extractLsb' 3 2 = k ∧ w.extractLsb' 8 1 = d := by
  have hgap : (0#3 : BitVec 3) = 0 ∧ (0#2 : BitVec 2) = dsizeCode .byte := by decide
  rw [and_regMask, encodeRegWord]
  change (_ : BitVec (4 + 3 + 1 + 2 + 1 + 2 + 3)) = _ ↔ _
  simp only [append_inj, hgap, and_true]
  tauto

theorem and_memMask_eq {w : Word} {k : BitVec 2} {d : BitVec 1} :
    w &&& 0xF7C0 = encodeMemWord false k d 0 0 ↔
      opcodeLine w = 0xE ∧ sizeCode w = 3 ∧ w.extractLsb' 9 2 = k ∧ w.extractLsb' 8 1 = d := by
  have hgap : (0#1 : BitVec 1) = BitVec.ofBool false ∧ (0#3 : BitVec 3) = 0 := by decide
  rw [and_memMask, encodeMemWord]
  change (_ : BitVec (4 + 1 + 2 + 1 + 2 + 3 + 3)) = _ ↔ _
  simp only [append_inj, hgap, and_true]
  tauto

theorem immRow_holds (k : BitVec 2) (d : BitVec 1) (w : Word) : (immRow k d).holds w = true ↔
    opcodeLine w = 0xE ∧ sizeCode w ≠ 3 ∧ w.extractLsb' 5 1 = 0 ∧ w.extractLsb' 3 2 = k ∧ w.extractLsb' 8 1 = d := by
  rw [OpcodeRow.holds, Bool.and_eq_true, beq_iff_eq, immRow, and_regMask_eq]
  have hform : ((sizeCode w == 3) == (Form.regImm == .mem)) = true ↔ sizeCode w ≠ 3 := by simp
  rw [hform]
  tauto

theorem regRow_holds (k : BitVec 2) (d : BitVec 1) (w : Word) : (regRow k d).holds w = true ↔
    opcodeLine w = 0xE ∧ sizeCode w ≠ 3 ∧ w.extractLsb' 5 1 = 1 ∧ w.extractLsb' 3 2 = k ∧ w.extractLsb' 8 1 = d := by
  rw [OpcodeRow.holds, Bool.and_eq_true, beq_iff_eq, regRow, and_regMask_eq]
  have hform : ((sizeCode w == 3) == (Form.regReg == .mem)) = true ↔ sizeCode w ≠ 3 := by simp
  rw [hform]
  tauto

theorem memRow_holds (k : BitVec 2) (d : BitVec 1) (w : Word) : (memRow k d).holds w = true ↔
    opcodeLine w = 0xE ∧ sizeCode w = 3 ∧ w.extractLsb' 9 2 = k ∧ w.extractLsb' 8 1 = d := by
  rw [OpcodeRow.holds, Bool.and_eq_true, beq_iff_eq, memRow, and_memMask_eq]
  have hform : ((sizeCode w == 3) == (Form.mem == .mem)) = true ↔ sizeCode w = 3 := by simp
  rw [hform]
  tauto

/-! The decoder gives an operation in a form by the bits that the row of that operation and form fixes. -/

theorem decodeLineE_immRow (k : BitVec 2) (d : BitVec 1) (w : Word) :
    ((decodeLineE (extractFields w)).tag = lineETag k d ∧ (decodeLineE (extractFields w)).form = .regImm) ↔
      sizeCode w ≠ 3 ∧ w.extractLsb' 5 1 = 0 ∧ w.extractLsb' 3 2 = k ∧ w.extractLsb' 8 1 = d := by
  rcases decodeLineE_word_cases w with ⟨hs, e⟩ | ⟨hs, h5, e⟩ | ⟨hs, h5, e⟩ <;> rw [e]
  · rw [memForm_form]
    exact ⟨nofun, fun h => absurd hs h.1⟩
  · rw [regForm_form, h5]
    exact ⟨nofun, nofun⟩
  · simp only [immForm_tag, immForm_form, lineETag_inj, and_true, ne_eq, hs, h5, not_false_eq_true, true_and]

theorem decodeLineE_regRow (k : BitVec 2) (d : BitVec 1) (w : Word) :
    ((decodeLineE (extractFields w)).tag = lineETag k d ∧ (decodeLineE (extractFields w)).form = .regReg) ↔
      sizeCode w ≠ 3 ∧ w.extractLsb' 5 1 = 1 ∧ w.extractLsb' 3 2 = k ∧ w.extractLsb' 8 1 = d := by
  rcases decodeLineE_word_cases w with ⟨hs, e⟩ | ⟨hs, h5, e⟩ | ⟨hs, h5, e⟩ <;> rw [e]
  · rw [memForm_form]
    exact ⟨nofun, fun h => absurd hs h.1⟩
  · simp only [regForm_tag, regForm_form, lineETag_inj, and_true, ne_eq, hs, h5, not_false_eq_true, true_and]
  · rw [immForm_form, h5]
    exact ⟨nofun, nofun⟩

theorem decodeLineE_memRow (k : BitVec 2) (d : BitVec 1) (w : Word) :
    ((decodeLineE (extractFields w)).tag = lineETag k d ∧ (decodeLineE (extractFields w)).form = .mem) ↔
      sizeCode w = 3 ∧ w.extractLsb' 9 2 = k ∧ w.extractLsb' 8 1 = d := by
  rcases decodeLineE_word_cases w with ⟨hs, e⟩ | ⟨hs, -, e⟩ | ⟨hs, -, e⟩ <;> rw [e]
  · simp only [memForm_tag, memForm_form, lineETag_inj, and_true, hs, true_and]
  · rw [regForm_form]
    exact ⟨nofun, fun h => absurd h.1 hs⟩
  · rw [immForm_form]
    exact ⟨nofun, fun h => absurd h.1 hs⟩

theorem holds_iff_decodeLineE {r : OpcodeRow} (hr : r ∈ opcodeTable) (w : Word) :
    r.holds w = true ↔ opcodeLine w = 0xE ∧ (decodeLineE (extractFields w)).tag = r.tag ∧
      (decodeLineE (extractFields w)).form = r.form := by
  obtain ⟨k, d, rfl | rfl | rfl⟩ := mem_opcodeTable hr
  · rw [immRow_holds]
    exact and_congr_right' (decodeLineE_immRow k d w).symm
  · rw [regRow_holds]
    exact and_congr_right' (decodeLineE_regRow k d w).symm
  · rw [memRow_holds]
    exact and_congr_right' (decodeLineE_memRow k d w).symm

/-- Settles O6: a row's fixed bits and the decoder's fields read the same slices of the word. -/
theorem decoderAgreesWithTable : Obligations.DecoderAgreesWithTable := by
  intro w r hr
  rw [holds_iff_decodeLineE hr]
  constructor
  · rintro ⟨hl, h⟩
    exact ⟨_, decodeWord_eq_ok_iff.2 ⟨hl, rfl⟩, h⟩
  · rintro ⟨i, hi, h⟩
    obtain ⟨hl, rfl⟩ := decodeWord_eq_ok_iff.1 hi
    exact ⟨hl, h⟩

/-- The table lists each operation in each form, once. -/
theorem exists_opcodeRow (t : Tag) (f : Form) : ∃ r ∈ opcodeTable, r.tag = t ∧ r.form = f := by
  cases t <;> cases f <;> decide

theorem opcodeRow_unique :
    ∀ r ∈ opcodeTable, ∀ q ∈ opcodeTable, q.tag = r.tag → q.form = r.form → q = r := by
  decide

/-- Settles O5: the one row of a line-E word is that of the operation and form it decodes to. -/
theorem oneTableRowPerLineEWord : Obligations.OneTableRowPerLineEWord := by
  intro w
  constructor
  · intro hl
    obtain ⟨r, hr, htag, hform⟩ := exists_opcodeRow (decodeLineE (extractFields w)).tag
      (decodeLineE (extractFields w)).form
    refine ⟨r, hr, (holds_iff_decodeLineE hr w).2 ⟨hl, htag.symm, hform.symm⟩, fun q hq hqw => ?_⟩
    obtain ⟨-, htag', hform'⟩ := (holds_iff_decodeLineE hq w).1 hqw
    exact opcodeRow_unique r hr q hq (htag'.symm.trans htag.symm) (hform'.symm.trans hform.symm)
  · intro hl q hq
    rw [← Bool.not_eq_true, holds_iff_decodeLineE hq]
    exact fun h => hl h.1

/-! ### The forms of one operation -/

/-- Settles O8: both layouts carry `{t, d}`, and the decoder of each form takes the tag from it. -/
theorem sameTagInBothForms : Obligations.SameTagInBothForms := by
  intro t d c dreg mode reg size ir x h
  have hmem := Laws.DecodeEncode.decode_memWord x t d mode reg
  rcases bitVec1_cases ir with rfl | rfl
  · exact ⟨_, _, Laws.DecodeEncode.decode_immWord c d t dreg h, hmem, by simp, by simp, by simp,
      by rw [immForm_tag, tagCode_lineETag]⟩
  · exact ⟨_, _, Laws.DecodeEncode.decode_regWord c d t dreg h, hmem, by simp, by simp, by simp,
      by rw [regForm_tag, tagCode_lineETag]⟩

/-- Settles O2: each word is evaluated. -/
theorem specExampleWordsDecode : Obligations.SpecExampleWordsDecode := by
  unfold Obligations.SpecExampleWordsDecode
  decide

/-! ### The published codes -/

/-- Settles O10: the closed tables are evaluated; TAG_TABLE is `tagCode_lineETag`. -/
theorem publishedCodes : Obligations.PublishedCodes :=
  ⟨Laws.DecodeEncode.dsizeOf_code, by decide, by decide, tagCode_lineETag, by decide, by decide,
    fun _ _ => ⟨rfl, rfl⟩⟩

/-! ### Counting the words of line 0xE -/

/-- A predicate that repeats every `m` numbers holds `k` times as often below `k * m` as below `m`. -/
theorem length_filter_range_of_periodic (p : Nat → Bool) (m k : Nat) (h : ∀ n, p (m + n) = p n) :
    ((List.range (k * m)).filter p).length = k * ((List.range m).filter p).length := by
  have hshift : p ∘ (m + ·) = p := funext h
  induction k with
  | zero => simp
  | succ k ih =>
    have hsplit : (k + 1) * m = m + k * m := by ring
    rw [hsplit, List.range_add, List.filter_append, List.length_append, List.filter_map, List.length_map, hshift, ih]
    ring

/-- The fields that tell the forms and the EAs apart lie in the low byte of a word. -/
theorem lowByte_fields (n : Nat) :
    sizeCode (BitVec.ofNat 16 (0xE000 + (256 + n))) = sizeCode (BitVec.ofNat 16 (0xE000 + n)) ∧
    modeLo (BitVec.ofNat 16 (0xE000 + (256 + n))) = modeLo (BitVec.ofNat 16 (0xE000 + n)) ∧
    regLo (BitVec.ofNat 16 (0xE000 + (256 + n))) = regLo (BitVec.ofNat 16 (0xE000 + n)) := by
  refine ⟨?_, ?_, ?_⟩ <;> apply BitVec.eq_of_toNat_eq
  · rw [toNat_sizeCode, toNat_sizeCode, BitVec.toNat_ofNat, BitVec.toNat_ofNat]
    omega
  · rw [toNat_modeLo, toNat_modeLo, BitVec.toNat_ofNat, BitVec.toNat_ofNat]
    omega
  · rw [toNat_regLo, toNat_regLo, BitVec.toNat_ofNat, BitVec.toNat_ofNat]
    omega

/-- Settles O9: each count is 16 times that over one low byte, whose 256 values are counted. -/
theorem lineEWordCounts : Obligations.LineEWordCounts := by
  refine ⟨?_, ?_, ?_⟩
  · refine (length_filter_range_of_periodic _ 256 16 fun n => ?_).trans (by decide +kernel)
    simp only [lowByte_fields n]
  · refine (length_filter_range_of_periodic _ 256 16 fun n => ?_).trans (by decide +kernel)
    simp only [lowByte_fields n]
  · refine (length_filter_range_of_periodic _ 256 16 fun n => ?_).trans (by decide +kernel)
    simp only [lowByte_fields n]

/-! ### Bit 11 of a memory-form word -/

theorem encodeMemWord_flip (x : Bool) (t : BitVec 2) (d : BitVec 1) (m r : BitVec 3) :
    encodeMemWord x t d m r ^^^ 0x0800 = encodeMemWord (!x) t d m r := by
  apply BitVec.eq_of_getLsbD_eq
  intro i hi
  simp only [encodeMemWord, BitVec.getLsbD_xor, BitVec.getLsbD_append, BitVec.getLsbD_ofBool]
  interval_cases i <;> simp

theorem memForm_inj {t : Tag} {x y : Bool} {m r : BitVec 3} (h : Instr.memForm t x m r = .memForm t y m r) : x = y := by
  cases t <;> injection h

/-- A word of a memory form, with bit 11 flipped, is the word of the same form with bit 11 flipped (R80). -/
theorem decodeWord_flip {w : Word} {i : Instr} (h : decodeWord w = .ok i) (hf : i.form = .mem) :
    ∃ t x m r, i = .memForm t x m r ∧ decodeWord (w ^^^ 0x0800) = .ok (.memForm t (!x) m r) := by
  rcases Machine.instr_forms i with ⟨c, z, r, hi⟩ | ⟨c, z, r, hi⟩ | ⟨x, m, r, hi⟩
  · rw [hi, immForm_form] at hf
    cases hf
  · rw [hi, regForm_form] at hf
    cases hf
  · obtain ⟨k, d, ht⟩ := exists_lineETag i.tag
    have hw : w = encodeMemWord x k d m r := by
      rw [← encodeWord_memForm, ht, ← hi, (encodeOfDecode w i h).2]
    refine ⟨i.tag, x, m, r, hi, ?_⟩
    rw [hw, encodeMemWord_flip, Laws.DecodeEncode.decode_memWord, ht]

/-- Settles O36: the flipped word is the same row's with bit 11 flipped, and no meaning reads that bit. -/
theorem memoryFormBit11Ignored : Obligations.MemoryFormBit11Ignored := by
  intro w i h hf
  obtain ⟨t, x, m, r, rfl, hflip⟩ := decodeWord_flip h hf
  refine ⟨_, hflip, fun he => ?_, by simp, by simp, fun s => ?_⟩
  · exact absurd (memForm_inj he) (by simp)
  · rw [Machine.exec_memForm, Machine.exec_memForm]

end Sys2Proof

/-! ### 20_memory.md: a long as two words, and what is outside the image (R55, R56) -/

namespace Sys2Proof.Machine

theorem fetchWord_advance_of_bytes {s : State} {n : Nat} {b0 b1 : Byte}
    (h0 : s.byteAt (s.fetchAddr + n) = some b0) (h1 : s.byteAt (s.fetchAddr + (n + 1)) = some b1) :
    fetchWord (s.advance n) = .ok (b0 ++ b1, s.advance (n + 2)) := by
  rw [fetchWord_of_bytes (s := s.advance n) (b0 := b0) (b1 := b1)]
  · simp only [State.advance, Nat.add_assoc]
  · exact (byteAt_fetchAddr_advance s n 0).trans h0
  · exact (byteAt_fetchAddr_advance s n 1).trans h1

/-- Settles O12: both sides answer exactly when the four bytes at the fetch address are there, and from those bytes. -/
theorem fetchLongIsTwoFetchWords : Obligations.FetchLongIsTwoFetchWords := by
  intro s t v
  constructor
  · intro h
    rcases fetchLong_cases s with ⟨b0, b1, b2, b3, h0, h1, h2, h3, e⟩ | ⟨-, e⟩ <;> rw [e] at h <;> cases h
    exact ⟨b0 ++ b1, b2 ++ b3, s.advance 2, fetchWord_of_bytes h0 h1, fetchWord_advance_of_bytes h2 h3,
      BitVec.append_assoc ..⟩
  · rintro ⟨hi, lo, u, hhi, hlo, rfl⟩
    rcases fetchWord_cases s with ⟨b0, b1, h0, h1, e⟩ | ⟨-, e⟩ <;> rw [e] at hhi <;> cases hhi
    rcases fetchWord_cases (s.advance 2) with ⟨b2, b3, h2, h3, e'⟩ | ⟨-, e'⟩ <;> rw [e'] at hlo <;> cases hlo
    rw [fetchLong_of_bytes h0 h1 ((byteAt_fetchAddr_advance s 2 0).symm.trans h2)
      ((byteAt_fetchAddr_advance s 2 1).symm.trans h3)]
    rw [BitVec.append_assoc]
    rfl

/-- A byte that is missing counted from the cursor is missing at the fetch address. -/
theorem missing_at_fetchAddr {s : State} {n : Nat} (h : ∃ k < n, s.byteAt (s.ip + s.cnt + k) = none) :
    ∃ k < n, s.byteAt (s.fetchAddr + k) = none := by
  obtain ⟨k, hk, h⟩ := h
  exact ⟨k, hk, (byteAt_fetchAddr_add s k).trans h⟩

/-- Settles O13: either fetch faults when any byte it needs is missing. -/
theorem fetchOutsideImageFaults : Obligations.FetchOutsideImageFaults := fun _ =>
  ⟨fun h => fetchWord_of_missing (missing_at_fetchAddr h), fun h => fetchLong_of_missing (missing_at_fetchAddr h)⟩

end Sys2Proof.Machine

/-! ### 41_ea_decoder.md: the modes (R122 to R140) -/

namespace Sys2Proof.Machine

theorem withExtWord_of_nextBytes {s : State} {b0 b1 : Byte} (h : Expected.nextBytes s [b0, b1])
    (build : Nat → Word → Operand) :
    withExtWord s build = .ok (.success (build s.fetchAddr (b0 ++ b1)), s.advance 2) := by
  rw [withExtWord, fetchWord_of_nextBytes h]

theorem withExtLong_of_nextBytes {s : State} {b0 b1 b2 b3 : Byte} (h : Expected.nextBytes s [b0, b1, b2, b3])
    (build : Long → Operand) :
    withExtLong s build = .ok (.success (build (b0 ++ b1 ++ b2 ++ b3)), s.advance 4) := by
  rw [withExtLong, fetchLong_of_nextBytes h]

theorem eaModeOf_eq_none_iff {mc : BitVec 4} : eaModeOf mc = none ↔ 11 < mc.toNat := by
  revert mc
  decide

/-- Settles O15: no mode stands in the table above code 11. -/
theorem invalidModeFails : Obligations.InvalidModeFails := by
  intro m r d s h
  rw [eaDecode, eaModeOf_eq_none_iff.2 h]
  rfl

/-- Settles O16: the four modes of the sub-group that are also reached by their own code use no register. -/
theorem directModeCodesIgnoreRegister : Obligations.DirectModeCodesIgnoreRegister := by
  have hcodes : ∀ (m : BitVec 4) (k : BitVec 3), 8 ≤ m.toNat → m.toNat ≤ 11 → k.toNat = m.toNat - 7 →
      (m = 8 ∧ k = 1) ∨ (m = 9 ∧ k = 2) ∨ (m = 10 ∧ k = 3) ∨ (m = 11 ∧ k = 4) := by
    decide
  intro m r k d s h8 h11 hk
  rcases hcodes m k h8 h11 hk with ⟨rfl, rfl⟩ | ⟨rfl, rfl⟩ | ⟨rfl, rfl⟩ | ⟨rfl, rfl⟩ <;> rfl

/-- Settles O17: each of these modes is its operand, by evaluation of the mode table. -/
theorem eaModesWithoutExtension : Obligations.EaModesWithoutExtension :=
  fun _ _ _ => ⟨rfl, rfl, rfl, rfl, rfl⟩

/-- Settles O18: the mode is one word fetch. -/
theorem eaDisplacementMode : Obligations.EaDisplacementMode := by
  intro r d s
  constructor
  · intro b0 b1 h
    rw [eaDecode_disp16, withExtWord_of_nextBytes h]
    rfl
  · intro h
    rw [eaDecode_disp16, withExtWord_of_missing (missing_at_fetchAddr h)]
    rfl

/-! ### The indexed modes -/

/-- With base An the displacement is stored sign-extended; that of 0 is 0 (R134). -/
theorem indexedBase_an (p : Params) (a : Nat) (b : Byte) : indexedBase p false a b = (b == 0, b.signExtend 32) := by
  by_cases h : b = 0
  · subst h
    rfl
  · rw [indexedBase, if_neg h, beq_false_of_ne h]
    rfl

/-- With base PC it is resolved when it is 0, or always, as PCIDX_RESOLVE says (R134). -/
theorem indexedBase_pc (p : Params) (a : Nat) (b : Byte) : indexedBase p true a b =
    (b == 0, if b = 0 ∨ p.pcidxResolve = .always then pcTarget p a (b.signExtend 32) else b.signExtend 32) := by
  by_cases h : b = 0
  · subst h
    rfl
  · rw [indexedBase, if_neg h, beq_false_of_ne h]
    simp only [h, false_or, Bool.true_and, beq_iff_eq]

/-- The operand of a brief extension word made of two bytes: the second is its displacement (R72, R133). -/
theorem indexedOperand_append (p : Params) (basePc : Bool) (r : BitVec 3) (d : DSize) (a : Nat) (b0 b1 : Byte) :
    indexedOperand p basePc r d a (b0 ++ b1) =
      Expected.indexed d basePc (if basePc then 0 else r) (b0 ++ b1) (indexedBase p basePc a b1).1
        (indexedBase p basePc a b1).2 := by
  simp only [indexedOperand, d8Field_append]
  rfl

/-- Settles O19: one word fetch, and the base of An. -/
theorem eaIndexedMode : Obligations.EaIndexedMode := by
  intro r d s b0 b1 h
  rw [eaDecode_indexed, withExtWord_of_nextBytes h, indexedOperand_append, indexedBase_an]
  rfl

/-- Settles O22: one word fetch, and the base of the PC. -/
theorem eaPcIndexed : Obligations.EaPcIndexed := by
  intro d s b0 b1 h disp target
  rw [eaDecode_pcIndexed, withExtWord_of_nextBytes h, indexedOperand_append, indexedBase_pc, pcTarget_fetchAddr]
  rfl

/-! ### The absolute and the PC-relative modes -/

/-- Settles O20: absolute short is one word fetch, absolute long one long fetch. -/
theorem eaAbsoluteModes : Obligations.EaAbsoluteModes := by
  refine ⟨fun d s => ⟨fun b0 b1 h => ?_, fun h => ?_⟩, fun d s => ⟨fun b0 b1 b2 b3 h => ?_, fun h => ?_⟩⟩
  · rw [eaDecode_absShort, withExtWord_of_nextBytes h]
    rfl
  · rw [eaDecode_absShort, withExtWord_of_missing (missing_at_fetchAddr h)]
    rfl
  · rw [eaDecode_absLong, withExtLong_of_nextBytes h]
    rfl
  · rw [eaDecode_absLong, withExtLong_of_missing (missing_at_fetchAddr h)]
    rfl

/-- Settles O21: one word fetch, whose address is the base; at 32 address bits the reduction is the 32-bit sum's. -/
theorem eaPcDisplacement : Obligations.EaPcDisplacement := by
  intro d s b0 b1 h disp target
  constructor
  · rw [eaDecode_pcDisp, withExtWord_of_nextBytes h, pcTarget_fetchAddr]
    rfl
  · intro h32
    apply BitVec.eq_of_toNat_eq
    simp [target, h32, BitVec.toNat_add, BitVec.toNat_ofNat]

/-! ### The immediate mode -/

theorem immWordVal_eq (p : Params) (e : Word) :
    immWordVal p e = if p.immWordExt = .sign then e.signExtend 32 else e.setWidth 32 := by
  unfold immWordVal
  cases p.immWordExt <;> rfl

/-- Settles O23: byte and word size are one word fetch, long size one long fetch. -/
theorem eaImmediateSizes : Obligations.EaImmediateSizes := by
  refine ⟨fun s b0 b1 h => ⟨?_, ?_⟩, fun s b0 b1 b2 b3 h => ?_⟩
  · rw [eaDecode_immediate, resolveImmediate, withExtWord_of_nextBytes h, immByteVal, append_low]
    rfl
  · rw [eaDecode_immediate, resolveImmediate, withExtWord_of_nextBytes h, immWordVal_eq]
    rfl
  · rw [eaDecode_immediate, resolveImmediate, withExtLong_of_nextBytes h]
    rfl

/-- Settles O24: the value is the next free one, which the counter moves past. -/
theorem eaImmediateUnsupportedSize : Obligations.EaImmediateUnsupportedSize :=
  fun s => ⟨Config.anyValue s.draws, s.draws + 1, rfl⟩

/-! ### What every call answers -/

/-- Settles O26: by the case lemma of the call; the failure's shell and the undefined immediate use no such field. -/
theorem unusedOperandFieldsZero : Obligations.UnusedOperandFieldsZero := by
  intro m r d s t res h
  rcases eaDecode_ok h with ⟨rfl, -⟩ | ⟨op, n, rfl, -, hu, -⟩ | ⟨-, -, rfl⟩
  · rfl
  · exact hu
  · rfl

/-- The resolved code of a mode (R123). -/
def EaMode.code : EaMode → Nat
  | .dataDirect => 0 | .addrDirect => 1 | .indirect => 2 | .postInc => 3 | .preDec => 4 | .disp16 => 5
  | .indexed => 6 | .absShort => 7 | .absLong => 8 | .pcDisp => 9 | .pcIndexed => 10 | .immediate => 11

theorem eaModeOf_eq_some {mc : BitVec 4} {m : EaMode} (h : eaModeOf mc = some m) : mc.toNat = m.code := by
  have hall : ∀ mc : BitVec 4, ∀ m ∈ eaModeOf mc, mc.toNat = m.code := by decide
  exact hall mc m h

/-- The extension bytes of a mode at a declared size (R141). -/
def EaMode.extBytes (m : EaMode) (d : DSize) : Nat :=
  match m with
  | .dataDirect | .addrDirect | .indirect | .postInc | .preDec => 0
  | .disp16 | .indexed | .absShort | .pcDisp | .pcIndexed => 2
  | .absLong => 4
  | .immediate =>
    match d with
    | .byte | .word => 2
    | .long => 4
    | .other => 0

theorem withExtWord_ok {s t : State} {res : EaResult} {build : Nat → Word → Operand}
    (h : withExtWord s build = .ok (res, t)) : ∃ op, res = .success op ∧ t = s.advance 2 := by
  rcases withExtWord_cases s build with ⟨b0, b1, -, -, e⟩ | e <;> rw [e] at h <;> cases h
  exact ⟨_, rfl, rfl⟩

theorem withExtLong_ok {s t : State} {res : EaResult} {build : Long → Operand}
    (h : withExtLong s build = .ok (res, t)) : ∃ op, res = .success op ∧ t = s.advance 4 := by
  rcases withExtLong_cases s build with ⟨b0, b1, b2, b3, -, -, -, -, e⟩ | e <;> rw [e] at h <;> cases h
  exact ⟨_, rfl, rfl⟩

/-- A mode that answers has taken exactly its extension; the immediate of unsupported size draws a value instead. -/
theorem resolveOperand_ok_extBytes {m : EaMode} {r : BitVec 3} {d : DSize} {s t : State} {res : EaResult}
    (h : resolveOperand m r d s = .ok (res, t)) :
    (¬ (m = .immediate ∧ d = .other) ∧ ∃ op, res = .success op ∧ t = s.advance (m.extBytes d)) ∨
    (m = .immediate ∧ d = .other ∧ t = (drawValue s).2 ∧ res.ok = true ∧ res.diag = true) := by
  cases m <;> simp only [resolveOperand] at h
  case dataDirect | addrDirect | indirect | postInc | preDec =>
    cases h
    exact .inl ⟨nofun, _, rfl, rfl⟩
  case disp16 | indexed | absShort | pcDisp | pcIndexed => exact .inl ⟨nofun, withExtWord_ok h⟩
  case absLong => exact .inl ⟨nofun, withExtLong_ok h⟩
  case immediate =>
    cases d <;> simp only [resolveImmediate] at h
    case byte | word => exact .inl ⟨nofun, withExtWord_ok h⟩
    case long => exact .inl ⟨nofun, withExtLong_ok h⟩
    case other =>
      cases h
      exact .inr ⟨rfl, rfl, rfl, rfl, rfl⟩

/-- Settles O27: by the mode that the resolved code names, or by none. -/
theorem eaExtensionBytes : Obligations.EaExtensionBytes := by
  intro m r d s t res h mc bytes
  rcases eaDecode_cases m r d s with ⟨hm, e⟩ | ⟨mode, hm, e⟩ <;> rw [e] at h
  · have hmc : 11 < mc := eaModeOf_eq_none_iff.1 hm
    have hbytes : bytes = 0 := by simp only [bytes]; split_ifs <;> omega
    cases h
    refine ⟨by rw [hbytes]; rfl, ⟨nofun, fun h => ?_⟩, ⟨nofun, fun h => ?_⟩⟩ <;> omega
  · have hmc : mc = mode.code := eaModeOf_eq_some hm
    have hbytes : bytes = mode.extBytes d := by
      simp only [bytes, hmc]
      cases mode
      case immediate => cases d <;> rfl
      all_goals rfl
    have hle : mode.code ≤ 11 := by cases mode <;> decide
    have himm : mode.code = 11 ↔ mode = .immediate := by cases mode <;> decide
    rw [hbytes, hmc, himm]
    rcases resolveOperand_ok_extBytes h with ⟨hno, op, rfl, rfl⟩ | ⟨rfl, rfl, rfl, hok, hdiag⟩
    · exact ⟨rfl, ⟨fun _ => hle, fun _ => rfl⟩, ⟨nofun, fun h => absurd h hno⟩⟩
    · exact ⟨rfl, ⟨fun _ => hle, fun _ => hok⟩, ⟨fun _ => ⟨rfl, rfl⟩, fun _ => hdiag⟩⟩

end Sys2Proof.Machine

/-! ### 30_encoding.md: an encoded operand decodes to itself (R76, R77; D6, D7, D8, D10) -/

namespace Sys2Proof.Machine

/-! ### Extension words held by the image -/

theorem withExtWord_of_holds {s : State} {e : Word} {build : Nat → Word → Operand} {op : Operand}
    (h : s.holds s.fetchAddr ([e].flatMap wordBytes)) (hop : op = build s.fetchAddr e) :
    withExtWord s build = .ok (.success op, s.advance 2) := by
  obtain ⟨h0, h1, -⟩ := h
  rw [withExtWord_of_bytes h0 h1, wordBytes_append, hop]

/-- The four bytes of a long, put together again. -/
theorem longBytes_append (v : Long) :
    ((v.extractLsb' 16 16).extractLsb' 8 8 ++ (v.extractLsb' 16 16).extractLsb' 0 8 ++
      (v.extractLsb' 0 16).extractLsb' 8 8 ++ (v.extractLsb' 0 16).extractLsb' 0 8 : Long) = v := by
  apply BitVec.eq_of_getLsbD_eq
  intro i hi
  simp only [BitVec.getLsbD_append, BitVec.getLsbD_extractLsb']
  interval_cases i <;> simp

theorem withExtLong_of_holds {s : State} {v : Long} {build : Long → Operand} {op : Operand}
    (h : s.holds s.fetchAddr ((longWords v).flatMap wordBytes)) (hop : op = build v) :
    withExtLong s build = .ok (.success op, s.advance 4) := by
  obtain ⟨h0, h1, h2, h3, -⟩ := h
  rw [withExtLong_of_bytes h0 h1 h2 h3, longBytes_append, hop]

/-! ### The fields of a brief extension word (R72) -/

theorem xregField_briefWord (xreg : BitVec 4) (xlong : Bool) (junk : BitVec 3) (d8 : Byte) :
    xregField (briefWord xreg xlong junk d8) = xreg := by
  apply BitVec.eq_of_getLsbD_eq
  intro i hi
  simp only [xregField, briefWord, BitVec.getLsbD_extractLsb', BitVec.getLsbD_append]
  interval_cases i <;> simp

theorem xlongField_briefWord (xreg : BitVec 4) (xlong : Bool) (junk : BitVec 3) (d8 : Byte) :
    xlongField (briefWord xreg xlong junk d8) = xlong := by
  simp only [xlongField, briefWord, BitVec.getLsbD_append]
  simp

theorem d8Field_briefWord (xreg : BitVec 4) (xlong : Bool) (junk : BitVec 3) (d8 : Byte) :
    d8Field (briefWord xreg xlong junk d8) = d8 :=
  BitVec.extractLsb'_append_eq_right

/-! ### The operands of each kind whose unused fields are 0 (R32) -/

theorem eq_regOperand {op : Operand} (hk : op.kind = .dataRegister ∨ op.kind = .addressRegister ∨
      op.kind = .indirect ∨ op.kind = .indirectPostIncrement ∨ op.kind = .indirectPreDecrement)
    (hu : op.unusedZero = true) : op = regOperand op.kind op.reg op.dsize := by
  obtain ⟨kind, d, reg, val, basePc, xreg, xlong, nobase⟩ := op
  rcases hk with rfl | rfl | rfl | rfl | rfl <;> simp_all [Operand.unusedZero, regOperand, Operand.shell, Operand.zero]

theorem eq_valOperand {op : Operand} (hk : op.kind = .absoluteShort ∨ op.kind = .absoluteLong ∨
      op.kind = .pcDisplacement ∨ op.kind = .immediate)
    (hu : op.unusedZero = true) : op = valOperand op.kind op.val op.dsize := by
  obtain ⟨kind, d, reg, val, basePc, xreg, xlong, nobase⟩ := op
  rcases hk with rfl | rfl | rfl | rfl <;> simp_all [Operand.unusedZero, valOperand, Operand.shell, Operand.zero]

theorem eq_dispOperand {op : Operand} (hk : op.kind = .indirectDisplacement) (hu : op.unusedZero = true) {e : Word}
    (hv : op.val = e.signExtend 32) : op = dispOperand op.reg e op.dsize := by
  obtain ⟨kind, d, reg, val, basePc, xreg, xlong, nobase⟩ := op
  subst hk hv
  simp_all [Operand.unusedZero, dispOperand, Operand.shell, Operand.zero]

theorem eq_indexedOperand {op : Operand} (hk : op.kind = .indirectIndexed) (hu : op.unusedZero = true) {p : Params}
    {a : Nat} {b : Byte} (hv : (op.nobase, op.val) = indexedBase p op.basePc a b) (junk : BitVec 3) :
    op = indexedOperand p op.basePc op.reg op.dsize a (briefWord op.xreg op.xlong junk b) := by
  have hreg : (if op.basePc then 0 else op.reg) = op.reg := by
    cases hb : op.basePc <;> simp_all [Operand.unusedZero]
  simp only [indexedOperand, xregField_briefWord, xlongField_briefWord, d8Field_briefWord, hreg, ← hv, ← hk]
  rfl

/-! ### An encodable operand is the one its extension says -/

section
variable {p : Params} {a : Nat} {op : Operand} (h : op.encodable p a = true)
include h

theorem encodable_unusedZero : op.unusedZero = true := by
  rw [Operand.encodable, Bool.and_eq_true] at h
  exact h.1

theorem encodable_disp (hk : op.kind = .indirectDisplacement) :
    op = dispOperand op.reg (op.val.setWidth 16) op.dsize := by
  refine eq_dispOperand hk (encodable_unusedZero h) ?_
  simp only [Operand.encodable, hk, Bool.and_eq_true, beq_iff_eq] at h
  exact h.2

theorem encodable_indexed (hk : op.kind = .indirectIndexed) (junk : BitVec 3) :
    op = indexedOperand p op.basePc op.reg op.dsize a (briefWord op.xreg op.xlong junk (d8Of p a op)) := by
  refine eq_indexedOperand hk (encodable_unusedZero h) ?_ junk
  simp only [Operand.encodable, hk, Bool.and_eq_true, beq_iff_eq] at h
  exact h.2

theorem encodable_absShort (hk : op.kind = .absoluteShort) :
    op = valOperand .absoluteShort ((op.val.setWidth 16).signExtend 32) op.dsize := by
  have hop := eq_valOperand (by simp [hk]) (encodable_unusedZero h)
  simp only [Operand.encodable, hk, Bool.and_eq_true, beq_iff_eq] at h
  rw [hk] at hop
  rwa [← h.2]

theorem encodable_pcDisp (hk : op.kind = .pcDisplacement) :
    op = valOperand .pcDisplacement (pcTarget p a (((pcDispOf p a op.val).setWidth 16).signExtend 32)) op.dsize := by
  have hop := eq_valOperand (by simp [hk]) (encodable_unusedZero h)
  simp only [Operand.encodable, hk, Bool.and_eq_true, beq_iff_eq] at h
  rw [hk] at hop
  rwa [← h.2]

theorem encodable_immByte (hk : op.kind = .immediate) (hd : op.dsize = .byte) (junk : Byte) :
    op = valOperand .immediate (immByteVal (junk ++ op.val.setWidth 8)) .byte := by
  have hop := eq_valOperand (by simp [hk]) (encodable_unusedZero h)
  simp only [Operand.encodable, hk, hd, Bool.and_eq_true, beq_iff_eq] at h
  rw [hk, hd] at hop
  rwa [immByteVal, append_low, ← h.2]

theorem encodable_immWord (hk : op.kind = .immediate) (hd : op.dsize = .word) :
    op = valOperand .immediate (immWordVal p (op.val.setWidth 16)) .word := by
  have hop := eq_valOperand (by simp [hk]) (encodable_unusedZero h)
  simp only [Operand.encodable, hk, hd, Bool.and_eq_true, beq_iff_eq] at h
  rw [hk, hd] at hop
  rwa [← h.2]

end

/-- Settles O28: kind by kind, the call fetches the extension, and an encodable operand is the one it says. -/
theorem eaDecodeOfEncodedOperand : Obligations.EaDecodeOfEncodedOperand := by
  intro s op junk henc c hbytes
  have hu := encodable_unusedZero henc
  cases hk : op.kind <;> simp only [c, encodeEa, hk] at hbytes ⊢
  case dataRegister | addressRegister | indirect | indirectPostIncrement | indirectPreDecrement =>
    conv_rhs => rw [eq_regOperand (by simp [hk]) hu, hk]
    rfl
  case indirectDisplacement =>
    exact (eaDecode_disp16 ..).trans (withExtWord_of_holds hbytes (encodable_disp henc hk))
  case indirectIndexed =>
    have hop := encodable_indexed henc hk (junk.setWidth 3)
    cases hb : op.basePc <;> simp only [hb, if_true, if_false, Bool.false_eq_true] at hbytes hop ⊢
    · exact (eaDecode_indexed ..).trans (withExtWord_of_holds hbytes hop)
    · exact (eaDecode_pcIndexed ..).trans (withExtWord_of_holds hbytes hop)
  case absoluteShort =>
    exact (eaDecode_absShort ..).trans (withExtWord_of_holds hbytes (encodable_absShort henc hk))
  case absoluteLong =>
    have hop := eq_valOperand (by simp [hk]) hu
    rw [hk] at hop
    exact (eaDecode_absLong ..).trans (withExtLong_of_holds hbytes hop)
  case pcDisplacement =>
    exact (eaDecode_pcDisp ..).trans (withExtWord_of_holds hbytes (encodable_pcDisp henc hk))
  case immediate =>
    refine (eaDecode_immediate ..).trans ?_
    cases hd : op.dsize <;> simp only [hd, resolveImmediate] at hbytes ⊢
    case byte => exact withExtWord_of_holds hbytes (encodable_immByte henc hk hd junk)
    case word => exact withExtWord_of_holds hbytes (encodable_immWord henc hk hd)
    case long =>
      have hop := eq_valOperand (by simp [hk]) hu
      rw [hk, hd] at hop
      exact withExtLong_of_holds hbytes hop
    case other => simp [Operand.encodable, hk, hd] at henc

end Sys2Proof.Machine

/-! ### 42_line_e.md: what each form answers (R161, R165 to R169) -/

namespace Sys2Proof.Machine

/-! ### The register forms -/

theorem lineEReg_eq (t : Tag) (src : Operand) (z : DSize) (r : BitVec 3) (s : State) :
    lineEReg t src z r s = .next (Expected.success s 0 (Expected.regRecord t src z r s.cnt)) := rfl

theorem immCountOperand_eq (c : BitVec 3) (z : DSize) :
    immCountOperand c z = Expected.operand .immediate z 0 (if c = 0 then 8 else BitVec.ofNat 32 c.toNat) := by
  rw [immCountOperand, immCount, ← BitVec.ofNat_toNat]
  rfl

/-- Settles O29: the immediate-count form is the register form with that count operand. -/
theorem immediateCountFormsComplete : Obligations.ImmediateCountFormsComplete := by
  intro t c z r s
  rw [exec_immForm, immCountOperand_eq, lineEReg_eq]

/-- Settles O30: the register-count form is the register form with a data register as its count. -/
theorem registerCountFormsComplete : Obligations.RegisterCountFormsComplete := by
  intro t c z r s
  rw [exec_regForm, lineEReg_eq]
  rfl

/-! ### The memory forms -/

/-- A permitted EA whose operand resolves is answered with that operand alone. -/
theorem lineEMem_of_success {t : Tag} {m r : BitVec 3} {s : State} {op : Operand} {n : Nat}
    (hp : permitted m r = true) (h : eaDecode (m.setWidth 4) r .word s = .ok (.success op, s.advance n)) :
    lineEMem t m r s = .next (Expected.success s n (Expected.memRecord t op (s.cnt + n))) := by
  rw [lineEMem, if_pos hp, h]
  rfl

theorem lineEMem_of_error {t : Tag} {m r : BitVec 3} {s : State} {f : Fault}
    (hp : permitted m r = true) (h : eaDecode (m.setWidth 4) r .word s = .error f) :
    lineEMem t m r s = .fault f := by
  rw [lineEMem, if_pos hp, h]

theorem lineEMem_of_refused {t : Tag} {m r : BitVec 3} {s : State} (hp : permitted m r = false) :
    lineEMem t m r s = .next (Expected.failure s .invalidAddressingMode) := by
  rw [lineEMem, hp]
  rfl

/-- The memory modes below 7 are permitted with any register (R165). -/
theorem permitted_memoryModes (r : BitVec 3) :
    permitted 2 r = true ∧ permitted 3 r = true ∧ permitted 4 r = true ∧ permitted 5 r = true ∧
    permitted 6 r = true := by
  revert r
  decide

/-- Settles O31: the three EAs are permitted and their operands need no fetch. -/
theorem memoryFormsWithoutExtension : Obligations.MemoryFormsWithoutExtension := by
  intro t x r s
  obtain ⟨h2, h3, h4, -⟩ := permitted_memoryModes r
  simp only [exec_memForm]
  exact ⟨lineEMem_of_success h2 rfl, lineEMem_of_success h3 rfl, lineEMem_of_success h4 rfl⟩

/-- Settles O32: the three EAs are permitted and their operands come from one word fetch. -/
theorem memoryFormsWithExtensionWord : Obligations.MemoryFormsWithExtensionWord := by
  intro t x r s b0 b1 h
  obtain ⟨-, -, -, h5, h6⟩ := permitted_memoryModes r
  simp only [exec_memForm]
  exact ⟨lineEMem_of_success h5 ((eaDisplacementMode r .word s).1 b0 b1 h),
    lineEMem_of_success h6 (eaIndexedMode r .word s b0 b1 h),
    lineEMem_of_success rfl ((eaAbsoluteModes.1 .word s).1 b0 b1 h)⟩

/-- Settles O33: absolute long is permitted and its operand comes from one long fetch. -/
theorem memoryFormsWithExtensionLong : Obligations.MemoryFormsWithExtensionLong := by
  intro t x s b0 b1 b2 b3 h
  rw [exec_memForm]
  exact lineEMem_of_success rfl ((eaAbsoluteModes.2 .word s).1 b0 b1 b2 b3 h)

/-- Settles O34: none of these EAs is of the memory class. -/
theorem memoryFormsRefuseOtherEas : Obligations.MemoryFormsRefuseOtherEas := by
  have hrefused : ∀ m r : BitVec 3, (m.toNat ≤ 1 ∨ (m = 7 ∧ 2 ≤ r.toNat)) → permitted m r = false := by
    decide
  intro t x m r s h
  rw [exec_memForm, lineEMem_of_refused (hrefused m r h)]

/-- Settles O35: each of these EAs is permitted, and its call is the fetch of its extension. -/
theorem memoryFormsFaultOutsideImage : Obligations.MemoryFormsFaultOutsideImage := by
  intro t x m r s n hm hmiss
  obtain ⟨-, -, -, h5, h6⟩ := permitted_memoryModes r
  have hmiss := missing_at_fetchAddr hmiss
  rw [exec_memForm]
  rcases hm with ⟨rfl | rfl | ⟨rfl, rfl⟩, rfl⟩ | ⟨⟨rfl, rfl⟩, rfl⟩
  · exact lineEMem_of_error h5 ((eaDecode_disp16 ..).trans (withExtWord_of_missing hmiss _))
  · exact lineEMem_of_error h6 ((eaDecode_indexed ..).trans (withExtWord_of_missing hmiss _))
  · exact lineEMem_of_error rfl ((eaDecode_absShort ..).trans (withExtWord_of_missing hmiss _))
  · exact lineEMem_of_error rfl ((eaDecode_absLong ..).trans (withExtLong_of_missing hmiss _))

/-! ### The frame of every instruction -/

/-- Whatever an instruction answers, it is the end of the attempt after 0, 2 or 4 extension bytes; a register form takes
none. -/
theorem exec_next_cases {i : Instr} {s t : State} (h : exec i s = .next t) :
    ∃ n, (n = 0 ∨ n = 2 ∨ n = 4) ∧ (i.form ≠ .mem → n = 0) ∧
      ((∃ e, t = fail e (s.advance n)) ∨ ∃ r, t = respond r (s.advance n)) := by
  rcases exec_cases i s with ⟨c, z, r, ⟨-, e⟩ | ⟨-, e⟩⟩ | ⟨x, m, r, hi, e⟩ <;> rw [e] at h
  · cases h
    exact ⟨0, .inl rfl, fun _ => rfl, .inr ⟨_, rfl⟩⟩
  · cases h
    exact ⟨0, .inl rfl, fun _ => rfl, .inr ⟨_, rfl⟩⟩
  · rcases lineEMem_cases i.tag m r s with ⟨-, e⟩ | ⟨-, e⟩ | ⟨-, op, n, -, -, -, hn, e⟩ <;> rw [e] at h <;> cases h
    · exact ⟨0, .inl rfl, fun _ => rfl, .inl ⟨_, rfl⟩⟩
    · refine ⟨n, hn, fun hf => absurd ?_ hf, .inr ⟨_, rfl⟩⟩
      rw [hi, memForm_form]

/-- Settles O37: advancing the cursor and ending the attempt leave the listed fields alone. -/
theorem instructionFrame : Obligations.InstructionFrame := by
  intro i s t h
  obtain ⟨n, hn, hmem, ⟨e, rfl⟩ | ⟨r, rfl⟩⟩ := exec_next_cases h
  · refine ⟨rfl, rfl, fun _ => rfl, rfl, rfl, rfl, rfl, ?_, fun hf => ?_⟩
    · simp only [fail_cnt, advance_cnt]
      omega
    · rw [fail_cnt, advance_cnt, hmem hf, Nat.add_zero]
  · refine ⟨rfl, rfl, fun _ => rfl, rfl, rfl, rfl, rfl, ?_, fun hf => ?_⟩
    · simp only [respond_cnt, advance_cnt]
      omega
    · rw [respond_cnt, advance_cnt, hmem hf, Nat.add_zero]

end Sys2Proof.Machine

/-! ### 43_dispatch.md: one attempt (R210 to R214), and its ends (R223, R258) -/

namespace Sys2Proof.Machine

/-! ### The start of an attempt -/

/-- The bytes an attempt fetches are those from its address on. -/
theorem byteAt_startDecode (addr : Nat) (s : State) (k : Nat) :
    (startDecode addr s).byteAt ((startDecode addr s).fetchAddr + k) = s.byteAt (addr + k) := by
  rw [byteAt_fetchAddr_add, startDecode_ip, startDecode_cnt, Nat.add_zero]
  exact byteAt_wrap_add s addr k

/-- After the opcode fetch the next bytes are those two further on. -/
theorem byteAt_startDecode_advance (addr : Nat) (s : State) (k : Nat) :
    ((startDecode addr s).advance 2).byteAt (((startDecode addr s).advance 2).fetchAddr + k) =
      s.byteAt (addr + (2 + k)) := by
  rw [byteAt_fetchAddr_advance, byteAt_startDecode]

theorem fetchWord_startDecode {s : State} {addr : Nat} {b0 b1 : Byte} (h : s.holds addr [b0, b1]) :
    fetchWord (startDecode addr s) = .ok (b0 ++ b1, (startDecode addr s).advance 2) := by
  obtain ⟨h0, h1, -⟩ := h
  exact fetchWord_of_bytes ((byteAt_startDecode addr s 0).trans h0) ((byteAt_startDecode addr s 1).trans h1)

/-! ### The branches of the Dispatch -/

section
variable {addr : Nat} {s s1 : State} {w : Word}

theorem dispatch_odd (h : addr % 2 = 1) : dispatch addr s = .next (Expected.failure s .invalidAlignment) := by
  rw [dispatch, if_pos h]
  rfl

theorem dispatch_fault (h : addr % 2 = 0) {f : Fault} (hf : fetchWord s = .error f) :
    dispatch addr s = .fault f := by
  rw [dispatch, if_neg (by omega), hf]

theorem dispatch_line (h : addr % 2 = 0) (hf : fetchWord s = .ok (w, s1)) (hl : opcodeLine w ≠ 0xE) :
    dispatch addr s = .next (Expected.failure s1 .unsupportedOpcodeLine) := by
  have hd : decodeWord w = .error (.unsupportedOpcodeLine (opcodeLine w)) := if_neg hl
  simp only [dispatch, if_neg (show ¬ addr % 2 = 1 by omega), hf, hd]
  rfl

theorem dispatch_exec (h : addr % 2 = 0) (hf : fetchWord s = .ok (w, s1)) {i : Instr} (hd : decodeWord w = .ok i) :
    dispatch addr s = exec i s1 := by
  simp only [dispatch, if_neg (show ¬ addr % 2 = 1 by omega), hf, hd]

end

/-- Settles O38: branch by branch. -/
theorem decodeFollowsItsPseudocode : Obligations.DecodeFollowsItsPseudocode := by
  intro addr s s0
  refine ⟨dispatch_odd, fun h f hf => dispatch_fault h hf, fun h w s1 hf => ⟨dispatch_line h hf, fun hl => ?_⟩⟩
  have hd := decodeWord_eq_ok_iff.2 ⟨hl, rfl⟩
  exact ⟨_, hd, dispatch_exec h hf hd⟩

/-- The line of a word made of two bytes is the high half of the first. -/
theorem toNat_opcodeLine_append (b0 b1 : Byte) : (opcodeLine (b0 ++ b1)).toNat = b0.toNat / 16 := by
  have hslice : opcodeLine (b0 ++ b1) = b0.extractLsb' 4 4 := BitVec.extractLsb'_append_eq_of_le (by decide)
  rw [hslice, BitVec.extractLsb'_toNat, Nat.shiftRight_eq_div_pow]
  omega

theorem opcodeLine_append_eq_iff (b0 b1 : Byte) : opcodeLine (b0 ++ b1) = 0xE ↔ b0.toNat / 16 = 14 := by
  rw [← toNat_opcodeLine_append b0 b1]
  exact BitVec.toNat_inj.symm

/-- Settles O40: the line is the first byte's high half, and the branches are those of O38. -/
theorem otherLinesUnsupported : Obligations.OtherLinesUnsupported := by
  intro s addr b0 b1 h hbytes
  have hf := fetchWord_startDecode hbytes
  constructor
  · intro hl
    exact ⟨_, dispatch_line h hf (mt (opcodeLine_append_eq_iff b0 b1).1 hl), rfl, rfl, rfl⟩
  · intro hl
    have hd := decodeWord_eq_ok_iff.2 ⟨(opcodeLine_append_eq_iff b0 b1).2 hl, rfl⟩
    exact ⟨_, hd, dispatch_exec h hf hd⟩

/-! ### What an attempt that answers leaves -/

theorem decodeAttempt_frame {addr : Nat} {s u : State} (h : decodeAttempt addr s = .next u) :
    u.params = s.params ∧ u.ip = wrap s.params addr ∧ u.request = s.request ∧ u.busy = false ∧ u.respPending = true ∧
    u.diag = false ∧ u.eaOk = false ∧ u.eaOp = .zero := by
  rcases decodeAttempt_next h with ⟨-, rfl⟩ | ⟨-, e, -, rfl⟩ | ⟨-, r, n, -, -, -, -, rfl⟩
  · exact ⟨rfl, rfl, rfl, rfl, rfl, rfl, rfl, rfl⟩
  · exact ⟨rfl, rfl, rfl, rfl, rfl, rfl, rfl, rfl⟩
  · exact ⟨rfl, rfl, rfl, rfl, rfl, rfl, rfl, rfl⟩

/-- The response and the cursor of an attempt that answers: the failure of an odd address, another failure, a success. -/
theorem decodeAttempt_response {addr : Nat} {s u : State} (h : decodeAttempt addr s = .next u) :
    (addr % 2 = 1 ∧ u.err = .invalidAlignment ∧ u.record = .zero ∧ u.len = 0 ∧ u.cnt = 0) ∨
    (addr % 2 = 0 ∧ (u.err = .unsupportedOpcodeLine ∨ u.err = .invalidAddressingMode) ∧ u.record = .zero ∧
      u.len = 0 ∧ u.cnt = 2) ∨
    (addr % 2 = 0 ∧ u.err = .none ∧ u.record.legal ∧ u.record.nops ≠ 0 ∧ u.record.len = u.len ∧ u.len = u.cnt ∧
      (u.len = 2 ∨ u.len = 4 ∨ u.len = 6)) := by
  rcases decodeAttempt_next h with ⟨ho, rfl⟩ | ⟨he, e, hc, rfl⟩ | ⟨he, r, n, hl, hz, hlen, hn, rfl⟩
  · exact .inl ⟨ho, rfl, rfl, rfl, rfl⟩
  · exact .inr (.inl ⟨he, hc, rfl, rfl, rfl⟩)
  · refine .inr (.inr ⟨he, rfl, hl, hz, rfl, ?_, ?_⟩)
    · simp only [respond_len, respond_cnt, advance_cnt, startDecode_cnt]
      omega
    · rw [respond_len, hlen]
      omega

/-- Settles O42: read off the response. -/
theorem dispatchResponse : Obligations.DispatchResponse := by
  intro s t addr h
  obtain ⟨-, -, -, -, -, hdiag, -, -⟩ := decodeAttempt_frame h
  refine ⟨hdiag, ?_⟩
  rcases decodeAttempt_response h with ⟨-, he, hr, hl, -⟩ | ⟨-, he, hr, hl, -⟩ | ⟨-, he, -, hz, hrl, hl, hn⟩
  · exact .inr ⟨hl, hr, .inl he⟩
  · exact .inr ⟨hl, hr, .inr he⟩
  · exact .inl ⟨he, hl, hn, hrl, Nat.one_le_iff_ne_zero.2 fun h0 => hz (BitVec.eq_of_toNat_eq h0)⟩

/-- Settles O43: read off the response; only a success has no error class. -/
theorem cursorAfterFailure : Obligations.CursorAfterFailure := by
  intro s t addr h herr
  obtain ⟨-, hip, -⟩ := decodeAttempt_frame h
  refine ⟨hip, ?_⟩
  rcases decodeAttempt_response h with ⟨-, he, -, -, hc⟩ | ⟨-, he, -, -, hc⟩ | ⟨-, he, -⟩
  · exact ⟨fun _ => hc, fun hne => absurd he hne⟩
  · refine ⟨fun ha => ?_, fun _ => hc⟩
    rw [ha] at he
    exact absurd he (by decide)
  · exact absurd he herr

/-! ### How an attempt ends -/

/-- A record that is not "no record" is a memory form's or a register form's. -/
theorem legal_nops {r : InstructionRecord} (h : r.legal) (hz : r.nops ≠ 0) : r.nops = 1 ∨ r.nops = 2 := by
  rcases h with rfl | ⟨h2, -⟩ | ⟨h1, -⟩
  · exact absurd rfl hz
  · exact .inr h2
  · exact .inl h1

theorem decodeAttempt_success_or_failure {addr : Nat} {s u : State} (h : decodeAttempt addr s = .next u) :
    u.isSuccess ∨ u.isFailure := by
  rcases decodeAttempt_response h with ⟨-, he, hr, hl, -⟩ | ⟨-, he, hr, hl, -⟩ | ⟨-, he, hlegal, hz, hrl, hl, hn⟩
  · exact .inr ⟨hl, by simp [he], hr⟩
  · exact .inr ⟨hl, by rcases he with he | he <;> simp [he], hr⟩
  · exact .inl ⟨by omega, hl, hrl, legal_nops hlegal hz, he⟩

theorem exec_fault {i : Instr} {s : State} {f : Fault} (h : exec i s = .fault f) :
    f = .fetchOutOfImage s.fetchAddr := by
  rcases exec_cases i s with ⟨c, z, r, ⟨-, e⟩ | ⟨-, e⟩⟩ | ⟨x, m, r, -, e⟩ <;> rw [e] at h
  · cases h
  · cases h
  · rcases lineEMem_cases i.tag m r s with ⟨-, e⟩ | ⟨-, e⟩ | ⟨-, op, n, -, -, -, -, e⟩ <;> rw [e] at h <;> cases h
    rfl

theorem decodeAttempt_fault {addr : Nat} {s : State} {f : Fault} (h : decodeAttempt addr s = .fault f) :
    ∃ a, f = .fetchOutOfImage a ∧ addr % 2 = 0 := by
  rcases dispatch_cases addr (startDecode addr s) with
    ⟨-, e⟩ | ⟨he, -, e⟩ | ⟨he, b0, b1, -, -, ⟨l, -, e⟩ | ⟨i, -, e⟩⟩ <;> rw [decodeAttempt, e] at h
  · cases h
  · cases h
    exact ⟨_, rfl, he⟩
  · cases h
  · exact ⟨_, exec_fault h, he⟩

theorem decodeAttempt_not_refused (addr : Nat) (s : State) (q : Refusal) : decodeAttempt addr s ≠ .refused q := by
  rcases dispatch_cases addr (startDecode addr s) with
    ⟨-, e⟩ | ⟨he, -, e⟩ | ⟨he, b0, b1, -, -, ⟨l, -, e⟩ | ⟨i, -, e⟩⟩ <;> rw [decodeAttempt, e]
  · nofun
  · nofun
  · nofun
  · exact exec_not_refused i _ q

/-- Settles O44: an answer is a success or a failure, told apart by the byte count; a stop is a fetch's, after the
alignment check. -/
theorem attemptEndsOneOfThreeWays : Obligations.AttemptEndsOneOfThreeWays := by
  intro s addr
  cases h : decodeAttempt addr s with
  | next u =>
    obtain ⟨-, -, -, hbusy, hpend, -⟩ := decodeAttempt_frame h
    refine .inl ⟨u, rfl, decodeAttempt_success_or_failure h, ?_, hbusy, hpend⟩
    rintro ⟨⟨hlen, -⟩, hlen0, -⟩
    omega
  | fault f =>
    obtain ⟨a, rfl, he⟩ := decodeAttempt_fault h
    exact .inr ⟨a, rfl, he⟩
  | refused q => exact absurd h (decodeAttempt_not_refused addr s q)

end Sys2Proof.Machine

/-! ### 70_reset_and_hazards.md and 43_dispatch.md: the step and the caller (R215, R216, R250 to R254) -/

namespace Sys2Proof.Machine

/-! ### What a step serves -/

theorem callerGoesOn_eq (u : State) : callerGoesOn u = { u with request := nextRequest u } := rfl

theorem decodeWord_of_decode {b0 b1 : Byte} {i : Instr} (h : decode [b0, b1] = .ok (i, [])) :
    decodeWord (b0 ++ b1) = .ok i := by
  cases hd : decodeWord (b0 ++ b1) with
  | error e => simp [decode, hd] at h
  | ok j => simpa [decode, hd] using h

/-- Settles O39: the step is the attempt, whose two bytes decode to the instruction. -/
theorem stepRunsDecodedInstruction : Obligations.StepRunsDecodedInstruction := by
  intro s addr b0 b1 i hask hbusy he hbytes hdec s1
  have hstep : step s = andThen (exec i s1) callerGoesOn := by
    rw [step_asksDecode hask hbusy, decodeAttempt,
      dispatch_exec he (fetchWord_startDecode hbytes) (decodeWord_of_decode hdec)]
    rfl
  rw [hstep]
  constructor
  · intro u hu
    rw [hu, andThen_next, callerGoesOn_eq]
  · intro f hf
    rw [hf, andThen_fault]

/-- Settles O41: the alignment check comes before any fetch. -/
theorem oddAddressAlwaysFails : Obligations.OddAddressAlwaysFails := by
  intro s addr hask hbusy ho
  rw [step_asksDecode hask hbusy, decodeAttempt, dispatch_odd ho]
  exact ⟨_, rfl, rfl, rfl, rfl, rfl, rfl, rfl, rfl⟩

/-- Settles O45: the step is the call on cleared outputs, and no scan goes on after it. -/
theorem stepRunsDirectEaCall : Obligations.StepRunsDirectEaCall := by
  intro s m r d hq hbusy
  rw [step_asksEa hq hbusy]
  constructor
  · intro res u h
    have hrequest : u.request = s.request := by
      rcases eaDecode_ok h with ⟨-, rfl⟩ | ⟨op, n, -, -, -, -, rfl⟩ | ⟨-, rfl, -⟩ <;> rfl
    have hidle : nextRequest (eaRespond res u) = .idle := by
      rw [nextRequest, eaRespond_request, hrequest, hq]
    have hea : eaAttempt m r d s = .next (eaRespond res u) := by
      simp only [eaAttempt, show beginAttempt s = Expected.started s from rfl, h]
    rw [hea, andThen_next, callerGoesOn_eq, hidle]
    rfl
  · intro f h
    have hea : eaAttempt m r d s = .fault f := by
      simp only [eaAttempt, show beginAttempt s = Expected.started s from rfl, h]
    rw [hea, andThen_fault]

/-- Settles O46: each of these requests looks at `busy` first. -/
theorem overlappingAttemptRefused : Obligations.OverlappingAttemptRefused := by
  intro s hbusy h
  rcases h with ⟨addr, hq | ⟨stop, hq, hlt⟩⟩ | ⟨m, r, d, hq⟩ | ⟨ip, cnt, hq⟩
  · simp [step, serve, hq, hbusy]
  · simp [step, serve, hq, hbusy, hlt]
  · simp [step, serve, hq, hbusy]
  · simp [step, serve, hq, hbusy]

/-- Settles O47: the three requests that start no attempt. -/
theorem callerIdleAndPlacing : Obligations.CallerIdleAndPlacing := by
  refine ⟨fun s hq => ?_, fun s addr stop hq hle => ?_, fun s ip cnt hq hbusy => ?_⟩
  · simp only [step, serve, hq]
  · simp only [step, serve, hq, if_neg (Nat.not_lt.2 hle)]
  · have hidle : nextRequest (placeCursor ip cnt s) = .idle := by
      rw [nextRequest, placeCursor_request, hq]
    have hstep : step s = .next (callerGoesOn (placeCursor ip cnt s)) := by
      simp [step, serve, hq, hbusy]
    rw [hstep, callerGoesOn_eq, hidle]
    rfl

/-- Settles O52: no request a step can serve writes the parameters. -/
theorem parametersNeverChange : Obligations.ParametersNeverChange := by
  intro s t h
  rcases step_cases h with ⟨rfl, -⟩ | ⟨ip, cnt, -, -, rfl⟩ | ⟨addr, u, -, -, hu, rfl⟩ |
    ⟨m, r, d, u, -, -, hu, rfl⟩
  · rfl
  · rfl
  · exact (decodeAttempt_frame hu).1
  · obtain ⟨res, v, he, rfl⟩ := eaAttempt_next hu
    rcases eaDecode_ok he with ⟨-, rfl⟩ | ⟨op, n, -, -, -, -, rfl⟩ | ⟨-, rfl, -⟩ <;> rfl

/-! ### The linear scan -/

/-- A step of an unfinished scan that answers is the attempt at its address, and then the scan moves on (R215). -/
theorem step_scan {s t : State} {addr stop : Nat} (hq : s.request = .scan addr stop) (hlt : addr < stop)
    (h : step s = .next t) :
    ∃ u, decodeAttempt addr s = .next u ∧ t = { u with request := .scan (resumeAt s.params addr u.len) stop } := by
  have hbusy : s.busy = false := by
    by_contra hb
    rw [overlappingAttemptRefused s (by simpa using hb) (.inl ⟨addr, .inr ⟨stop, hq, hlt⟩⟩)] at h
    cases h
  rw [step_asksDecode (.inr ⟨stop, hq, hlt⟩) hbusy] at h
  obtain ⟨u, hu, rfl⟩ := andThen_eq_next h
  obtain ⟨hparams, -, hrequest, -⟩ := decodeAttempt_frame hu
  refine ⟨u, hu, ?_⟩
  simp only [callerGoesOn_eq, nextRequest, hrequest, hq, hparams]

/-- Where the scan goes on, by the error class of the response. -/
theorem resumeAt_response {addr : Nat} {s u : State} (h : decodeAttempt addr s = .next u) :
    resumeAt s.params addr u.len = (addr + if u.err = .none then u.len else 1) % 2 ^ s.params.addrBits := by
  rcases decodeAttempt_response h with ⟨-, he, -, hl, -⟩ | ⟨-, he, -, hl, -⟩ | ⟨-, he, -, -, -, -, hn⟩
  · rw [he, hl]
    rfl
  · rcases he with he | he <;> rw [he, hl] <;> rfl
  · have hpos : 0 < u.len := by omega
    rw [resumeAt, if_pos hpos, if_pos he, wrap]

/-- Settles O48: a success has bytes, a failure has none. -/
theorem scanResynchronises : Obligations.ScanResynchronises := by
  intro s t addr stop hq hlt h
  obtain ⟨u, hu, rfl⟩ := step_scan hq hlt h
  rw [← resumeAt_response hu]

theorem core_run_two {s t u : State} (h : step s = .next t) (h' : step t = .next u) :
    Sys2Proof.core.run 2 s = .next u := by
  have hcore : Sys2Proof.core.step = step := rfl
  simp only [Host.Core.run, hcore, h, h']

/-- Settles O49: the second step's address is odd, so it fails there and moves on by 1 again. -/
theorem scanSkipsUndecodableWord : Obligations.ScanSkipsUndecodableWord := by
  intro s t addr stop hq heven hstop hrange h herr
  have hreq := scanResynchronises s t addr stop hq (by omega) h
  rw [if_neg herr, Nat.mod_eq_of_lt (by omega)] at hreq
  have hparams := parametersNeverChange s t h
  have hbusy : t.busy = false := by
    obtain ⟨u, hu, rfl⟩ := step_scan hq (by omega) h
    obtain ⟨-, -, -, hbusy, -⟩ := decodeAttempt_frame hu
    exact hbusy
  have hstep : step t = .next (callerGoesOn (Expected.failure (startDecode (addr + 1) t) .invalidAlignment)) := by
    rw [step_asksDecode (.inr ⟨stop, hreq, hstop⟩) hbusy, decodeAttempt, dispatch_odd (by omega), andThen_next]
  refine ⟨_, core_run_two h hstep, ?_, rfl⟩
  have hreq' := scanResynchronises t _ (addr + 1) stop hreq hstop hstep
  rw [hreq', hparams]
  exact congrArg (Request.scan · stop) (Nat.mod_eq_of_lt hrange)

theorem add_mod_ne_self {a n m : Nat} (ha : a < m) (hn : 0 < n) (hnm : n < m) : (a + n) % m ≠ a := by
  rcases Nat.lt_or_ge (a + n) m with h | h
  · rw [Nat.mod_eq_of_lt h]
    omega
  · rw [Nat.mod_eq_sub_mod h, Nat.mod_eq_of_lt (by omega)]
    omega

/-- Settles O50: a response moves the scan on by 1, 2, 4 or 6 bytes, and the address space has at least 8. -/
theorem scanNeverStays : Obligations.ScanNeverStays := by
  intro s t addr stop hq hlt hbits hrange h
  obtain ⟨u, hu, rfl⟩ := step_scan hq hlt h
  have hspace : 2 ^ 3 ≤ 2 ^ s.params.addrBits := Nat.pow_le_pow_right (by decide) hbits
  refine ⟨_, rfl, ?_⟩
  rw [resumeAt_response hu]
  rcases decodeAttempt_response hu with ⟨-, he, -⟩ | ⟨-, he, -⟩ | ⟨-, he, -, -, -, -, hn⟩
  · rw [if_neg (by simp [he])]
    exact add_mod_ne_self hrange (by decide) (by omega)
  · rw [if_neg (by rcases he with he | he <;> simp [he])]
    exact add_mod_ne_self hrange (by decide) (by omega)
  · rw [if_pos he]
    exact add_mod_ne_self hrange (by omega) (by omega)

end Sys2Proof.Machine

/-! ### 10_state.md and 70_reset_and_hazards.md: reset and the invariant (R41, R251, R32, R214, R226) -/

namespace Sys2Proof.Machine

/-- Settles O54: read off the state after reset. -/
theorem resetValues : Obligations.ResetValues :=
  ⟨rfl, rfl, rfl, rfl, rfl, rfl, rfl, rfl, rfl, rfl, rfl⟩

/-- Settles O55: the image is empty, the cursor 0, and every output is that of no response. -/
theorem resetMeetsInvariant : Obligations.ResetMeetsInvariant where
  imgCanonical := reset_img_wf
  ipInRange := by decide
  recordLegal := .inl rfl
  lenIsRecords := rfl
  errNoRecord := fun _ => rfl
  eaOpUnused := rfl
  eaOkNoErr := nofun
  diagOnly := nofun

/-- What the caller asks next is no part of the invariant. -/
theorem inv_callerGoesOn {s : State} (h : s.Inv) : (callerGoesOn s).Inv :=
  ⟨h.imgCanonical, h.ipInRange, h.recordLegal, h.lenIsRecords, h.errNoRecord, h.eaOpUnused, h.eaOkNoErr, h.diagOnly⟩

theorem inv_placeCursor {s : State} (h : s.Inv) (ip cnt : Nat) : (placeCursor ip cnt s).Inv :=
  ⟨h.imgCanonical, wrap_lt s.params ip, h.recordLegal, h.lenIsRecords, h.errNoRecord, h.eaOpUnused, h.eaOkNoErr,
    h.diagOnly⟩

/-- A Dispatch attempt leaves no EA response, and a record only with a success. -/
theorem inv_decodeAttempt {s u : State} {addr : Nat} (h : s.Inv) (hu : decodeAttempt addr s = .next u) : u.Inv := by
  obtain ⟨hparams, hip, -, -, -, hdiag, hok, hop⟩ := decodeAttempt_frame hu
  have himg : u.img.wf := decodeAttempt_img hu ▸ h.imgCanonical
  have hrange : u.ip < 2 ^ u.params.addrBits := by
    rw [hparams, hip]
    exact wrap_lt s.params addr
  have hunused : u.eaOp.unusedZero = true := by rw [hop]; rfl
  have hnoOk : u.eaOk = true → u.err = .none ∧ u.record = .zero := by simp [hok]
  have hnoDiag : u.diag = true → u.eaOk = true ∧ u.eaOp.kind = .immediate ∧ u.eaOp.dsize = .other := by simp [hdiag]
  have hfail : u.record = .zero → u.len = 0 → u.Inv := fun hr hl =>
    ⟨himg, hrange, .inl hr, by rw [hl, hr]; rfl, fun _ => hr, hunused, hnoOk, hnoDiag⟩
  rcases decodeAttempt_response hu with ⟨-, -, hr, hl, -⟩ | ⟨-, -, hr, hl, -⟩ | ⟨-, he, hlegal, -, hl, -⟩
  · exact hfail hr hl
  · exact hfail hr hl
  · exact ⟨himg, hrange, hlegal, hl.symm, fun hne => absurd he hne, hunused, hnoOk, hnoDiag⟩

/-- A direct EA Decoder call leaves no record, and an error class or a diagnostic only as its result says. -/
theorem inv_eaAttempt {s u : State} {m : BitVec 4} {r : BitVec 3} {d : DSize} (h : s.Inv)
    (hu : eaAttempt m r d s = .next u) : u.Inv := by
  obtain ⟨res, v, he, rfl⟩ := eaAttempt_next hu
  have hunused := unusedOperandFieldsZero m r d _ _ _ he
  rcases eaDecode_ok he with ⟨rfl, rfl⟩ | ⟨op, n, rfl, -, -, -, rfl⟩ | ⟨rfl, rfl, rfl⟩
  · exact ⟨h.imgCanonical, h.ipInRange, .inl rfl, rfl, fun _ => rfl, hunused, nofun, nofun⟩
  · exact ⟨h.imgCanonical, h.ipInRange, .inl rfl, rfl, fun _ => rfl, hunused, fun _ => ⟨rfl, rfl⟩, nofun⟩
  · exact ⟨h.imgCanonical, h.ipInRange, .inl rfl, rfl, fun _ => rfl, hunused, fun _ => ⟨rfl, rfl⟩,
      fun _ => ⟨rfl, rfl, rfl⟩⟩

/-- Settles O56: request by request. -/
theorem stepKeepsInvariant : Obligations.StepKeepsInvariant := by
  intro s t hinv h
  rcases step_cases h with ⟨rfl, -⟩ | ⟨ip, cnt, -, -, rfl⟩ | ⟨addr, u, -, -, hu, rfl⟩ |
    ⟨m, r, d, u, -, -, hu, rfl⟩
  · exact hinv
  · exact inv_callerGoesOn (inv_placeCursor hinv ip cnt)
  · exact inv_callerGoesOn (inv_decodeAttempt hinv hu)
  · exact inv_callerGoesOn (inv_eaAttempt hinv hu)

end Sys2Proof.Machine

/-! ### 42_line_e.md and 30_encoding.md: an assembled memory form decodes to itself (D3, D13, D16) -/

namespace Sys2Proof.Machine

theorem isMemoryOperand_cases {op : Operand} (h : op.isMemoryOperand = true) :
    op.basePc = false ∧ op.dsize = .word ∧
    (op.kind = .indirect ∨ op.kind = .indirectPostIncrement ∨ op.kind = .indirectPreDecrement ∨
      op.kind = .indirectDisplacement ∨ op.kind = .indirectIndexed ∨ op.kind = .absoluteShort ∨
      op.kind = .absoluteLong) := by
  simp only [Operand.isMemoryOperand, Bool.and_eq_true, Bool.not_eq_true', beq_iff_eq] at h
  obtain ⟨⟨⟨hkind, hbase⟩, hsize⟩, -⟩ := h
  refine ⟨hbase, hsize, ?_⟩
  revert hkind
  cases op.kind <;> simp [memoryExtBytes]

/-- The displacement byte of an operand with base An does not depend on where its extension stands (R134). -/
theorem d8Of_an {op : Operand} (h : op.basePc = false) (p : Params) (a b : Nat) : d8Of p a op = d8Of p b op := by
  simp [d8Of, h]

/-- The encoding of a memory operand does not depend on where its extension stands: only a PC-relative one's does. -/
theorem encodeEa_memory {op : Operand} (h : op.isMemoryOperand = true) (p : Params) (a b : Nat) (junk : Byte) :
    encodeEa p a junk op = encodeEa p b junk op := by
  obtain ⟨hbase, -, hk | hk | hk | hk | hk | hk | hk⟩ := isMemoryOperand_cases h <;>
    simp only [encodeEa, hk, d8Of_an hbase p a b]

theorem encodable_memory {op : Operand} (h : op.isMemoryOperand = true) (p : Params) (a b : Nat) :
    op.encodable p a = op.encodable p b := by
  obtain ⟨hbase, -, hk | hk | hk | hk | hk | hk | hk⟩ := isMemoryOperand_cases h <;>
    simp only [Operand.encodable, hk, hbase, indexedBase_an, d8Of_an hbase p a b]

/-- The EA pair of a memory operand is one a memory form permits (R165). -/
theorem permitted_encodeEa {op : Operand} (h : op.isMemoryOperand = true) (p : Params) (a : Nat) (junk : Byte) :
    permitted (encodeEa p a junk op).mode (encodeEa p a junk op).reg = true := by
  obtain ⟨h2, h3, h4, h5, h6⟩ := permitted_memoryModes op.reg
  obtain ⟨hbase, -, hk | hk | hk | hk | hk | hk | hk⟩ := isMemoryOperand_cases h <;> simp only [encodeEa, hk, hbase]
  · exact h2
  · exact h3
  · exact h4
  · exact h5
  · exact h6
  · rfl
  · rfl

/-- What the image holds from an address on, by the bytes' positions. -/
theorem holds_congr {s t : State} {a b : Nat} (hbyte : ∀ k, s.byteAt (a + k) = t.byteAt (b + k)) :
    ∀ {bs : List Byte}, s.holds a bs → t.holds b bs
  | [], _ => trivial
  | v :: rest, ⟨hv, hrest⟩ =>
    ⟨(hbyte 0).symm.trans hv, holds_congr (fun k => by simpa [Nat.add_assoc] using hbyte (1 + k)) hrest⟩

/-- A memory form answers the operand that its EA pair and the extension held by the image encode. -/
theorem exec_memForm_encodeEa {s : State} {op : Operand} {junk : Byte} {c : EaCode}
    (hc : c = encodeEa s.params s.fetchAddr junk op) (hmem : op.isMemoryOperand = true)
    (henc : op.encodable s.params s.fetchAddr = true) (hext : s.holds s.fetchAddr (c.ext.flatMap wordBytes))
    (t : Tag) (x : Bool) : exec (.memForm t x c.mode c.reg) s =
      .next (Expected.success s (2 * c.ext.length) (Expected.memRecord t op (s.cnt + 2 * c.ext.length))) := by
  obtain ⟨-, hsize, -⟩ := isMemoryOperand_cases hmem
  subst hc
  have hdecode := eaDecodeOfEncodedOperand s op junk henc hext
  rw [hsize] at hdecode
  rw [exec_memForm]
  exact lineEMem_of_success (permitted_encodeEa hmem ..) hdecode

/-- Settles O57: the opcode word decodes to the memory form (O3), whose operand is the encoded one (O28). -/
theorem assembledMemoryInstructionDecodes : Obligations.AssembledMemoryInstructionDecodes := by
  intro s addr t x op junk hmem henc hask hbusy he c hbytes
  obtain ⟨h0, h1, hext⟩ := hbytes
  let s1 := (startDecode addr s).advance 2
  have hword := decodeWord_encodeWord (memForm_wf t x c.mode c.reg)
  rw [← wordBytes_append (encodeWord (.memForm t x c.mode c.reg))] at hword
  have hc : c = encodeEa s1.params s1.fetchAddr junk op := encodeEa_memory hmem ..
  have henc1 : op.encodable s1.params s1.fetchAddr = true := (encodable_memory hmem ..).trans henc
  have hext1 : s1.holds s1.fetchAddr (c.ext.flatMap wordBytes) := by
    refine holds_congr (a := addr + 2) (fun k => ?_) hext
    rw [byteAt_startDecode_advance, Nat.add_assoc]
  rw [step_asksDecode hask hbusy, decodeAttempt, dispatch_exec he (fetchWord_startDecode ⟨h0, h1, trivial⟩) hword,
    exec_memForm_encodeEa hc hmem henc1 hext1]
  exact ⟨_, rfl, rfl, rfl, rfl, rfl⟩

end Sys2Proof.Machine

/-! ### 20_memory.md and 70_reset_and_hazards.md: what an attempt depends on (R25, R40, R56, R63; D2, D19, D24) -/

namespace Sys2Proof.Machine

/-! ### Two states that an attempt cannot tell apart -/

/-- The parameters, the cursor and the outputs of two states are the same. -/
structure Agree (s t : State) : Prop where
  params   : s.params = t.params
  response : sameResponse s t

/-- The next `n` bytes of two states are the same, or missing in both. -/
def sameNext (n : Nat) (s t : State) : Prop :=
  ∀ k < n, s.byteAt (s.fetchAddr + k) = t.byteAt (t.fetchAddr + k)

/-- Two answers of the EA Decoder: the same result in states that agree, or the same fault. -/
def sameEaAnswer (x y : Except Fault (EaResult × State)) : Prop :=
  (∃ res s t, x = .ok (res, s) ∧ y = .ok (res, t) ∧ Agree s t) ∨ (∃ f, x = .error f ∧ y = .error f)

section
variable {s t : State}

theorem Agree.cnt_eq (h : Agree s t) : s.cnt = t.cnt := by
  obtain ⟨-, -, -, -, -, -, -, -, hcnt, -⟩ := h
  exact hcnt

theorem Agree.fetchAddr_eq (h : Agree s t) : s.fetchAddr = t.fetchAddr := by
  obtain ⟨hp, -, -, -, -, -, -, hip, hcnt, -⟩ := h
  rw [State.fetchAddr, State.fetchAddr, hp, hip, hcnt]

theorem Agree.advance (h : Agree s t) (n : Nat) : Agree (s.advance n) (t.advance n) := by
  obtain ⟨hp, hr, hl, he, hd, hok, hop, hip, hcnt, hpend⟩ := h
  exact ⟨hp, hr, hl, he, hd, hok, hop, hip, congrArg (· + n) hcnt, hpend⟩

theorem Agree.drawValue (h : Agree s t) : Agree (drawValue s).2 (drawValue t).2 := by
  obtain ⟨hp, hr, hl, he, hd, hok, hop, hip, hcnt, hpend⟩ := h
  exact ⟨hp, hr, hl, he, hd, hok, hop, hip, hcnt, hpend⟩

theorem Agree.fail (h : Agree s t) (e : ErrClass) : sameResponse (fail e s) (fail e t) := by
  obtain ⟨-, -, -, -, hd, -, hop, hip, hcnt, -⟩ := h
  exact ⟨rfl, rfl, rfl, hd, rfl, hop, hip, hcnt, rfl⟩

theorem Agree.respond (h : Agree s t) (r : InstructionRecord) : sameResponse (respond r s) (respond r t) := by
  obtain ⟨-, -, -, -, hd, hok, hop, hip, hcnt, -⟩ := h
  exact ⟨rfl, rfl, rfl, hd, hok, hop, hip, hcnt, rfl⟩

theorem Agree.eaRespond (h : Agree s t) (res : EaResult) : sameResponse (eaRespond res s) (eaRespond res t) := by
  obtain ⟨-, hr, hl, -, -, -, -, hip, hcnt, -⟩ := h
  exact ⟨hr, hl, rfl, rfl, rfl, rfl, hip, hcnt, rfl⟩

/-- An attempt starts with cleared outputs, so only the parameters and the cursor count (R40). -/
theorem agree_beginAttempt (hp : s.params = t.params) (hip : s.ip = t.ip) (hcnt : s.cnt = t.cnt) :
    Agree (beginAttempt s) (beginAttempt t) :=
  ⟨hp, rfl, rfl, rfl, rfl, rfl, rfl, hip, hcnt, rfl⟩

theorem agree_startDecode (hp : s.params = t.params) (addr : Nat) :
    Agree (startDecode addr s) (startDecode addr t) := by
  have hip : wrap s.params addr = wrap t.params addr := by rw [hp]
  exact ⟨hp, rfl, rfl, rfl, rfl, rfl, rfl, hip, rfl, rfl⟩

theorem sameNext_mono {n m : Nat} (h : sameNext m s t) (hnm : n ≤ m) : sameNext n s t :=
  fun k hk => h k (by omega)

/-! ### The fetches and the EA Decoder -/

theorem fetchWord_agree (h : Agree s t) (hb : sameNext 2 s t) :
    (∃ w, fetchWord s = .ok (w, s.advance 2) ∧ fetchWord t = .ok (w, t.advance 2)) ∨
    (∃ f, fetchWord s = .error f ∧ fetchWord t = .error f) := by
  have hread : s.memRead2 s.fetchAddr = t.memRead2 t.fetchAddr := by
    have h0 := hb 0 (by decide)
    have h1 := hb 1 (by decide)
    rw [Nat.add_zero, Nat.add_zero] at h0
    simp only [State.memRead2, h0, h1]
  rw [fetchWord, fetchWord, hread, h.fetchAddr_eq]
  cases t.memRead2 t.fetchAddr with
  | none => exact .inr ⟨_, rfl, rfl⟩
  | some w => exact .inl ⟨w, rfl, rfl⟩

theorem fetchLong_agree (h : Agree s t) (hb : sameNext 4 s t) :
    (∃ v, fetchLong s = .ok (v, s.advance 4) ∧ fetchLong t = .ok (v, t.advance 4)) ∨
    (∃ f, fetchLong s = .error f ∧ fetchLong t = .error f) := by
  have hread : s.memRead4 s.fetchAddr = t.memRead4 t.fetchAddr := by
    have h0 := hb 0 (by decide)
    rw [Nat.add_zero, Nat.add_zero] at h0
    simp only [State.memRead4, h0, hb 1 (by decide), hb 2 (by decide), hb 3 (by decide)]
  rw [fetchLong, fetchLong, hread, h.fetchAddr_eq]
  cases t.memRead4 t.fetchAddr with
  | none => exact .inr ⟨_, rfl, rfl⟩
  | some v => exact .inl ⟨v, rfl, rfl⟩

theorem withExtWord_agree (h : Agree s t) (hb : sameNext 2 s t) (build : Nat → Word → Operand) :
    sameEaAnswer (withExtWord s build) (withExtWord t build) := by
  unfold withExtWord
  rcases fetchWord_agree h hb with ⟨w, hs, ht⟩ | ⟨f, hs, ht⟩ <;> rw [hs, ht]
  · exact .inl ⟨_, _, _, rfl, by rw [h.fetchAddr_eq], h.advance 2⟩
  · exact .inr ⟨f, rfl, rfl⟩

theorem withExtLong_agree (h : Agree s t) (hb : sameNext 4 s t) (build : Long → Operand) :
    sameEaAnswer (withExtLong s build) (withExtLong t build) := by
  unfold withExtLong
  rcases fetchLong_agree h hb with ⟨v, hs, ht⟩ | ⟨f, hs, ht⟩ <;> rw [hs, ht]
  · exact .inl ⟨_, _, _, rfl, rfl, h.advance 4⟩
  · exact .inr ⟨f, rfl, rfl⟩

/-- An EA Decoder call reads the parameters, the cursor and the next four bytes; and one free value, in the one mode
that draws it (R140). -/
theorem resolveOperand_agree (h : Agree s t) (hb : sameNext 4 s t) {d : DSize} (hd : d = .other → s.draws = t.draws)
    (m : EaMode) (r : BitVec 3) : sameEaAnswer (resolveOperand m r d s) (resolveOperand m r d t) := by
  have hb2 := sameNext_mono hb (show 2 ≤ 4 by decide)
  cases m <;> simp only [resolveOperand, h.params]
  case dataDirect | addrDirect | indirect | postInc | preDec => exact .inl ⟨_, _, _, rfl, rfl, h⟩
  case disp16 | indexed | absShort | pcDisp | pcIndexed => exact withExtWord_agree h hb2 _
  case absLong => exact withExtLong_agree h hb _
  case immediate =>
    cases d <;> simp only [resolveImmediate, h.params]
    case byte | word => exact withExtWord_agree h hb2 _
    case long => exact withExtLong_agree h hb _
    case other =>
      refine .inl ⟨_, _, _, rfl, ?_, h.drawValue⟩
      simp only [Machine.drawValue, hd rfl]

theorem eaDecode_agree (h : Agree s t) (hb : sameNext 4 s t) {d : DSize} (hd : d = .other → s.draws = t.draws)
    (m : BitVec 4) (r : BitVec 3) : sameEaAnswer (eaDecode m r d s) (eaDecode m r d t) := by
  rcases eaDecode_cases m r d s with ⟨hm, -⟩ | ⟨mode, hm, -⟩
  · simp only [eaDecode, hm]
    exact .inl ⟨_, _, _, rfl, rfl, h⟩
  · simp only [eaDecode, hm]
    exact resolveOperand_agree h hb hd mode r

/-! ### Instructions and attempts -/

theorem lineEMem_agree (h : Agree s t) (hb : sameNext 4 s t) (tag : Tag) (m r : BitVec 3) :
    sameOutcome (lineEMem tag m r s) (lineEMem tag m r t) := by
  unfold lineEMem
  cases permitted m r with
  | false => exact h.fail _
  | true =>
    rcases eaDecode_agree h hb (d := .word) nofun (m.setWidth 4) r with ⟨res, s', t', hs, ht, hst⟩ | ⟨f, hs, ht⟩ <;>
      rw [hs, ht]
    · cases hok : res.ok with
      | false =>
        simp only [hok, if_true, if_false, Bool.false_eq_true]
        exact hst.fail _
      | true =>
        simp only [hok, if_true, hst.cnt_eq]
        exact hst.respond _
    · rfl

theorem exec_agree (h : Agree s t) (hb : sameNext 4 s t) (i : Instr) : sameOutcome (exec i s) (exec i t) := by
  rcases instr_forms i with ⟨c, z, r, e⟩ | ⟨c, z, r, e⟩ | ⟨x, m, r, e⟩ <;> rw [e]
  · rw [exec_immForm, exec_immForm, lineEReg, lineEReg, h.cnt_eq]
    exact h.respond _
  · rw [exec_regForm, exec_regForm, lineEReg, lineEReg, h.cnt_eq]
    exact h.respond _
  · rw [exec_memForm, exec_memForm]
    exact lineEMem_agree h hb ..

theorem dispatch_agree (h : Agree s t) (hb2 : sameNext 2 s t) (hb4 : sameNext 4 (s.advance 2) (t.advance 2))
    (addr : Nat) : sameOutcome (dispatch addr s) (dispatch addr t) := by
  unfold dispatch
  by_cases ho : addr % 2 = 1
  · rw [if_pos ho, if_pos ho]
    exact h.fail _
  · rw [if_neg ho, if_neg ho]
    rcases fetchWord_agree h hb2 with ⟨w, hs, ht⟩ | ⟨f, hs, ht⟩ <;> rw [hs, ht]
    · cases hd : decodeWord w with
      | error e =>
        simp only [hd]
        exact (h.advance 2).fail _
      | ok i =>
        simp only [hd]
        exact exec_agree (h.advance 2) hb4 i
    · rfl

/-- A Dispatch attempt reads the parameters and the six bytes from its address on, and nothing else. -/
theorem decodeAttempt_agree (hp : s.params = t.params) {addr : Nat}
    (hb : ∀ k < 6, s.byteAt (addr + k) = t.byteAt (addr + k)) :
    sameOutcome (decodeAttempt addr s) (decodeAttempt addr t) := by
  refine dispatch_agree (agree_startDecode hp addr) (fun k hk => ?_) (fun k hk => ?_) addr
  · rw [byteAt_startDecode, byteAt_startDecode, hb k (by omega)]
  · rw [byteAt_startDecode_advance, byteAt_startDecode_advance, hb (2 + k) (by omega)]

theorem eaAttempt_agree (hp : s.params = t.params) (hip : s.ip = t.ip) (hcnt : s.cnt = t.cnt)
    (hdraws : s.draws = t.draws) (hb : ∀ a, s.byteAt a = t.byteAt a) (m : BitVec 4) (r : BitVec 3) (d : DSize) :
    sameOutcome (eaAttempt m r d s) (eaAttempt m r d t) := by
  have h := agree_beginAttempt hp hip hcnt
  have hnext : sameNext 4 (beginAttempt s) (beginAttempt t) := fun k _ => by
    rw [h.fetchAddr_eq]
    exact hb _
  unfold eaAttempt
  rcases eaDecode_agree h hnext (fun _ => hdraws) m r with ⟨res, s', t', hs, ht, hst⟩ | ⟨f, hs, ht⟩ <;> rw [hs, ht]
  · exact hst.eaRespond res
  · rfl

end

/-! ### The step -/

/-- What the caller asks next is no part of the response. -/
theorem sameResponse_callerGoesOn {s t : State} (h : sameResponse s t) :
    sameResponse (callerGoesOn s) (callerGoesOn t) := by
  obtain ⟨hr, hl, he, hd, hok, hop, hip, hcnt, hpend⟩ := h
  exact ⟨hr, hl, he, hd, hok, hop, hip, hcnt, hpend⟩

theorem sameOutcome_callerGoesOn {x y : Host.Outcome State Fault Refusal} (h : sameOutcome x y) :
    sameOutcome (andThen x callerGoesOn) (andThen y callerGoesOn) := by
  cases x <;> cases y
  case next.next => exact sameResponse_callerGoesOn h
  all_goals exact h

/-- Settles O58: each step is its attempt, and the attempts read the same. -/
theorem attemptDependsOnlyOnItsBytes : Obligations.AttemptDependsOnlyOnItsBytes := by
  intro s t addr hp hb hs ht hsbusy htbusy
  rw [step_asksDecode hs hsbusy, step_asksDecode ht htbusy]
  exact sameOutcome_callerGoesOn (decodeAttempt_agree hp hb)

/-- The state with the image that a changing one shows, held fixed. -/
def State.frozenImage (s : State) : State :=
  { s with img := s.visibleImage, imgChanging := false }

theorem byteAt_frozenImage (s : State) (a : Nat) : s.frozenImage.byteAt a = s.byteAt a := rfl

/-- An attempt reads the image as it is shown, so holding that one fixed changes no answer. -/
theorem step_frozenImage (s : State) : sameOutcome (step s) (step s.frozenImage) := by
  have hbytes : ∀ a, s.byteAt a = s.frozenImage.byteAt a := fun a => (byteAt_frozenImage s a).symm
  have hdecode : ∀ addr, sameOutcome (decodeAttempt addr s) (decodeAttempt addr s.frozenImage) :=
    fun addr => decodeAttempt_agree (s := s) (t := s.frozenImage) rfl fun k _ => hbytes (addr + k)
  have hea : ∀ m r d, sameOutcome (eaAttempt m r d s) (eaAttempt m r d s.frozenImage) :=
    eaAttempt_agree (s := s) (t := s.frozenImage) rfl rfl rfl rfl hbytes
  have hsame : sameResponse s s.frozenImage := ⟨rfl, rfl, rfl, rfl, rfl, rfl, rfl, rfl, rfl⟩
  have hrequest : s.frozenImage.request = s.request := rfl
  have hbusy : s.frozenImage.busy = s.busy := rfl
  unfold step serve
  rw [hrequest, hbusy]
  cases s.request with
  | idle => exact hsame
  | place ip cnt =>
    cases s.busy
    case true => rfl
    case false => exact ⟨rfl, rfl, rfl, rfl, rfl, rfl, rfl, rfl, rfl⟩
  | decodeAt addr =>
    cases s.busy
    case true => rfl
    case false => exact sameOutcome_callerGoesOn (hdecode addr)
  | scan addr stop =>
    by_cases hlt : addr < stop
    · simp only [if_pos hlt]
      cases s.busy
      case true => rfl
      case false => exact sameOutcome_callerGoesOn (hdecode addr)
    · simp only [if_neg hlt]
      exact hsame
  | ea m r d =>
    cases s.busy
    case true => rfl
    case false => exact sameOutcome_callerGoesOn (hea m r d)

/-- Settles O60: the free image that the attempt sees is the image. -/
theorem changingImageGivesSomeImagesAnswer : Obligations.ChangingImageGivesSomeImagesAnswer :=
  fun s _ => ⟨s.visibleImage, step_frozenImage s⟩

end Sys2Proof.Machine

/-! ### 20_memory.md and 70_reset_and_hazards.md: enough readable bytes (R56, R167, R258) -/

namespace Sys2Proof.Machine

/-- The next `n` bytes are in the image. -/
def State.nextReadable (s : State) (n : Nat) : Prop := ∀ k < n, (s.byteAt (s.fetchAddr + k)).isSome = true

theorem State.nextReadable.byte {s : State} {n : Nat} (h : s.nextReadable n) {k : Nat} (hk : k < n) :
    ∃ b, s.byteAt (s.fetchAddr + k) = some b :=
  Option.isSome_iff_exists.1 (h k hk)

section
variable {s : State}

theorem fetchWord_of_readable (h : s.nextReadable 2) : ∃ w, fetchWord s = .ok (w, s.advance 2) := by
  obtain ⟨b0, h0⟩ := h.byte (k := 0) (by decide)
  obtain ⟨b1, h1⟩ := h.byte (k := 1) (by decide)
  exact ⟨_, fetchWord_of_bytes h0 h1⟩

theorem fetchLong_of_readable (h : s.nextReadable 4) : ∃ v, fetchLong s = .ok (v, s.advance 4) := by
  obtain ⟨b0, h0⟩ := h.byte (k := 0) (by decide)
  obtain ⟨b1, h1⟩ := h.byte (k := 1) (by decide)
  obtain ⟨b2, h2⟩ := h.byte (k := 2) (by decide)
  obtain ⟨b3, h3⟩ := h.byte (k := 3) (by decide)
  exact ⟨_, fetchLong_of_bytes h0 h1 h2 h3⟩

theorem withExtWord_of_readable (h : s.nextReadable 2) (build : Nat → Word → Operand) :
    ∃ p, withExtWord s build = .ok p := by
  obtain ⟨w, hw⟩ := fetchWord_of_readable h
  exact ⟨_, by rw [withExtWord, hw]⟩

theorem withExtLong_of_readable (h : s.nextReadable 4) (build : Long → Operand) :
    ∃ p, withExtLong s build = .ok p := by
  obtain ⟨v, hv⟩ := fetchLong_of_readable h
  exact ⟨_, by rw [withExtLong, hv]⟩

/-- No mode needs more than the next four bytes (R141). -/
theorem resolveOperand_of_readable (h : s.nextReadable 4) (m : EaMode) (r : BitVec 3) (d : DSize) :
    ∃ p, resolveOperand m r d s = .ok p := by
  have h2 : s.nextReadable 2 := fun k hk => h k (by omega)
  cases m <;> simp only [resolveOperand]
  case dataDirect | addrDirect | indirect | postInc | preDec => exact ⟨_, rfl⟩
  case disp16 | indexed | absShort | pcDisp | pcIndexed => exact withExtWord_of_readable h2 _
  case absLong => exact withExtLong_of_readable h _
  case immediate =>
    cases d <;> simp only [resolveImmediate]
    case byte | word => exact withExtWord_of_readable h2 _
    case long => exact withExtLong_of_readable h _
    case other => exact ⟨_, rfl⟩

theorem eaDecode_of_readable (h : s.nextReadable 4) (m : BitVec 4) (r : BitVec 3) (d : DSize) :
    ∃ p, eaDecode m r d s = .ok p := by
  rcases eaDecode_cases m r d s with ⟨-, e⟩ | ⟨mode, -, e⟩ <;> rw [e]
  · exact ⟨_, rfl⟩
  · exact resolveOperand_of_readable h mode r d

theorem lineEMem_of_readable (h : s.nextReadable 4) (tag : Tag) (m r : BitVec 3) :
    ∃ t, lineEMem tag m r s = .next t := by
  obtain ⟨⟨res, s'⟩, hea⟩ := eaDecode_of_readable h (m.setWidth 4) r .word
  simp only [lineEMem, hea]
  split_ifs <;> exact ⟨_, rfl⟩

theorem exec_of_readable (h : s.nextReadable 4) (i : Instr) : ∃ t, exec i s = .next t := by
  rcases exec_cases i s with ⟨c, z, r, ⟨-, e⟩ | ⟨-, e⟩⟩ | ⟨x, m, r, -, e⟩ <;> rw [e]
  · exact ⟨_, rfl⟩
  · exact ⟨_, rfl⟩
  · exact lineEMem_of_readable h ..

theorem decodeAttempt_of_readable {addr : Nat} (h : s.sixBytesReadable addr) :
    ∃ t, decodeAttempt addr s = .next t := by
  have h2 : (startDecode addr s).nextReadable 2 := fun k hk => by
    rw [byteAt_startDecode]
    exact h k (by omega)
  have h4 : ((startDecode addr s).advance 2).nextReadable 4 := fun k hk => by
    rw [byteAt_startDecode_advance]
    exact h (2 + k) (by omega)
  rcases Nat.mod_two_eq_zero_or_one addr with he | ho
  · obtain ⟨w, hw⟩ := fetchWord_of_readable h2
    rcases decodeWord_cases w with ⟨-, hd⟩ | ⟨hl, -⟩
    · rw [decodeAttempt, dispatch_exec he hw hd]
      exact exec_of_readable h4 _
    · exact ⟨_, dispatch_line he hw hl⟩
  · exact ⟨_, dispatch_odd ho⟩

end

/-- Settles O59: no fetch of the attempt leaves the six bytes, and an attempt that answers is a success or a failure. -/
theorem readableAttemptIsSafe : Obligations.ReadableAttemptIsSafe := by
  intro s addr hask hbusy hread
  obtain ⟨u, hu⟩ := decodeAttempt_of_readable hread
  rw [step_asksDecode hask hbusy, hu]
  have hend : u.isSuccess ∨ u.isFailure := decodeAttempt_success_or_failure hu
  exact ⟨_, rfl, hend⟩

end Sys2Proof.Machine
